-- ==== Sys2Proof/Word.lean ====
section
/-! DEFINITION. The words of RSFC and the named alternatives an operand can take.
Every integer is an unsigned word of a stated width (46_laws.md R190), and an f32 is its 32-bit
pattern (00_scope.md R7). -/

namespace Sys2Proof

/-- A byte, 8 bits in every space (20_memory.md R30). -/
abbrev Byte := BitVec 8

/-- A parameter index, 16 bits (10_state.md R15). -/
abbrev Half := BitVec 16

/-- A packed address or a raw value, 32 bits. -/
abbrev Word32 := BitVec 32

/-- An f32 is its bit pattern, so two are equal when their 32 bits are (00_scope.md R7). -/
abbrev F32 := BitVec 32

/-- A payload `p`: bytes `p[0]` to `p[7]` (30_encoding.md R51). -/
abbrev Payload := Vector Byte 8

/-- The source's `ParameterType` (30_encoding.md R54). -/
inductive ParamType where
  | float32
  | int16
  | int8
deriving DecidableEq, Repr

/-- The two named address strategies (41_address.md R95). -/
inductive Strategy where
  | plain
  | rot3
deriving DecidableEq, Repr

/-- What the host gives the machine: a request on the request port, as the bit string of
30_encoding.md R53 (first bit first), or a command frame as it stands on the wire
(43_frames.md R120): the packed address and the eight payload bytes. -/
inductive Request where
  | op (bits : List Bool)
  | frame (addr32 : Word32) (p : Payload)
deriving DecidableEq, Repr

end Sys2Proof
end

