-- ==== Sys2Proof/Config.lean ====
section
/-! DEFINITION. What is fixed for the machine: the contents of the ROM and the constants
(10_state.md R15, R16), the fixed and default parameters of 00_scope.md R4, and the free values,
each a constant with no body. -/

namespace Sys2Proof

/-- A `ParameterSpec`: a 16-bit index and a type (00_scope.md glossary). -/
structure ParamSpec where
  index : Half
  type : ParamType
deriving DecidableEq, Repr

/-- What the transport does around one exchange, as far as the host can see (45_host_sequences.md
R171): the frames that came in since the exchange before, whether `send` succeeds, the frames that
come in inside the reply window, and whether `try_receive` succeeds. -/
structure Answer where
  early : List (List Byte)
  sendOk : Bool
  inWindow : List (List Byte)
  receiveOk : Bool
deriving DecidableEq, Repr, Inhabited

/-- `FOLD_ARITH`: the intermediate precision of the fold (00_scope.md R4). -/
inductive FoldArith where
  | single
  | double
deriving DecidableEq, Repr

/-- The two transport bindings (43_frames.md R120). -/
inductive Binding where
  | native
  | serial
deriving DecidableEq, Repr

namespace Config

/-! ### The parameter ROM, row by row (10_state.md R15) -/

def runMode : ParamSpec := ⟨0x0570#16, .int8⟩
def speedMaxCurrent : ParamSpec := ⟨0x1870#16, .float32⟩
def speedTarget : ParamSpec := ⟨0x0A70#16, .float32⟩
def positionSpeedLimit : ParamSpec := ⟨0x1770#16, .float32⟩
def positionTarget : ParamSpec := ⟨0x1670#16, .float32⟩
def mechPos : ParamSpec := ⟨0x1970#16, .float32⟩
def mechVel : ParamSpec := ⟨0x1B70#16, .float32⟩
def speedAcceleration : ParamSpec := ⟨0x2270#16, .float32⟩
def position03Speed : ParamSpec := ⟨0x2470#16, .float32⟩
def positionAcceleration : ParamSpec := ⟨0x2570#16, .float32⟩

/-- `ROM` rows 0 to 9. -/
def romTable : List ParamSpec :=
  [runMode, speedMaxCurrent, speedTarget, positionSpeedLimit, positionTarget,
    mechPos, mechVel, speedAcceleration, position03Speed, positionAcceleration]

/-! ### Command codes and envelope constants (10_state.md R16) -/

def enableCode : Byte := 3#8
def disableCode : Byte := 4#8
def resetCode : Byte := 6#8
def readCode : Byte := 17#8
def writeCode : Byte := 18#8

/-- The five command codes; every other value is reserved (30_encoding.md R56). -/
def commandCodes : List Byte := [enableCode, disableCode, resetCode, readCode, writeCode]

/-- The payload of a frame with no parameter, shape `PAY.Z` (30_encoding.md R51). -/
def zeroPayload : Payload := #v[0#8, 0#8, 0#8, 0#8, 0#8, 0#8, 0#8, 0#8]

/-- The reset payload, shape `PAY.R` (42_payload.md R110). -/
def resetPayload : Payload := #v[1#8, 0#8, 0#8, 0#8, 0#8, 0#8, 0#8, 0#8]

def header0 : Byte := 0x41#8
def header1 : Byte := 0x54#8
def lengthByte : Byte := 0x08#8
def tail0 : Byte := 0x0D#8
def tail1 : Byte := 0x0A#8

/-! ### Parameters of 00_scope.md R4 -/

/-- `NATIVE_MIN_LEN`. -/
def nativeMinLen : Nat := 8

/-- `SERIAL_PAYLOAD_OFFSET`. -/
def serialPayloadOffset : Nat := 7

/-- The default of the OPEN parameter `SERIAL_MIN_LEN`; its legal values are 15 to 17. -/
def serialMinLenDefault : Nat := 15

/-- `RX_MAX` at reset and in the numbering of table words; it is OPEN, at least 17 (log entry 2). -/
def rxMaxDefault : Nat := 65535

/-- The default of the OPEN parameter `SERIAL_ADDR_STRATEGY`. -/
def serialAddrStrategyDefault : Strategy := .plain

/-- `HOST_ID_DEFAULT`. -/
def hostIdDefault : Byte := 253#8

/-- The default speed of `set_position`, 10.0 (45_host_sequences.md R180). -/
def defaultSpeed : F32 := 0x41200000#32

/-- The default acceleration of both motion sequences, 20.0 (45_host_sequences.md R180, R181). -/
def defaultMaxAcc : F32 := 0x41A00000#32

/-- The default current limit of `set_velocity`, 23.0 (45_host_sequences.md R181). -/
def defaultMaxCurrent : F32 := 0x41B80000#32

/-- The modes the host writes to `RUN_MODE`, as f32 values 1.0 and 2.0
(45_host_sequences.md R182). -/
def positionMode : F32 := 0x3F800000#32
def velocityMode : F32 := 0x40000000#32

/-! ### Free values: constants with no body, of which nothing can be proved -/

/-- `cvt_oob`: the float-to-integer conversion outside its domain (42_payload.md R106, U1; log
entry 6). -/
opaque cvtOob : F32 → Word32

/-- `LAST_VALUE_INIT`: the host's `last_value` before a read has succeeded (10_state.md R20, U8;
log entry 7). -/
opaque lastValueInit : F32

/-- The `motor_id` the session's caller supplies (10_state.md R20, N15; log entry 7). -/
opaque motorIdInit : Byte

/-- The transport's receive queue at reset, which "may hold stale frames" (10_state.md R20; log
entry 7). -/
opaque rxQueueInit : List (List Byte)

/-- What the transport answers in the n-th exchange beyond the script (U10; log entry 8). -/
opaque transportOracle : Nat → Answer

/-- The tie rule of the fold's `round`, which the spec does not state: whether a quotient halfway
between `k` and `k + 1` goes up (45_host_sequences.md R180, D27; log entry 13). -/
opaque foldTieUp : Int → Bool

/-- The folded target where an intermediate result is beyond the largest finite number of its
format (log entry 13). -/
opaque foldOverflow : F32 → F32 → F32

/-- Whether a folded target of zero has its sign bit set (log entry 13). -/
opaque foldZeroNegative : F32 → F32 → Bool

end Config

end Sys2Proof
end

