-- ==== Sys2Proof/Syntax.lean ====
section
/-! DEFINITION. The instruction set: one constructor per row of spec/opcode_table.json. The first
sixteen are the codec operations in the order of their operation select (30_encoding.md R52), the
last five the command frames of the wire (30_encoding.md R56). An operand has its port width
(10_state.md R17), so that a reserved code (`cmd`, `param_id`, `ptype`) can be written. -/

namespace Sys2Proof

/-- An operation with its operands, or a command frame with its address fields and payload. -/
inductive Instr where
  | ptByname (paramId : BitVec 4)
  | ptByindex (index : Half)
  | addrPack (cmd hostId motorId : Byte)
  | addrUnpack (addr32 : Word32)
  | addrSer (addr32 : Word32) (strat : Strategy)
  | payBuild (hasParam : Bool) (index : Half) (ptype : BitVec 2) (value : F32)
  | payReset
  | frameEnable (hostId motorId : Byte)
  | frameDisable (hostId motorId : Byte)
  | frameReset (hostId motorId : Byte)
  | frameRead (hostId motorId : Byte) (index : Half)
  | frameWrite (hostId motorId : Byte) (index : Half) (ptype : BitVec 2) (value : F32)
  | serWrap (addr32 : Word32) (strat : Strategy) (p : Payload)
  | decF32 (rx : List Byte)
  | decResp (rx : List Byte)
  | decRespSer (rx : List Byte)
  | wireEnable (hostId motorId : Byte) (p : Payload)
  | wireDisable (hostId motorId : Byte) (p : Payload)
  | wireReset (hostId motorId : Byte) (p : Payload)
  | wireRead (hostId motorId : Byte) (p : Payload)
  | wireWrite (hostId motorId : Byte) (p : Payload)
deriving DecidableEq, Repr

end Sys2Proof
end

