-- ==== Sys2Proof/WellFormed.lean ====
section
/-! DEFINITION. Which instruction terms have an encoding of the shape the spec gives: a received
byte sequence of at most `RX_MAX` bytes (10_state.md R17), and a command frame whose payload has the
shape of its row (30_encoding.md R51, R56). Reserved operand codes are well formed: they have an
encoding and the operation answers them with a status (30_encoding.md R61). -/

namespace Sys2Proof

/-- Shape `PAY.P` with no value, carried by READ (30_encoding.md R57). -/
def Payload.isIndexOnly (p : Payload) : Bool :=
  p[2] == 0#8 && p[3] == 0#8 && p[4] == 0#8 && p[5] == 0#8 && p[6] == 0#8 && p[7] == 0#8

/-- Shape `PAY.P`, carried by WRITE: the reserved bytes are zero (42_payload.md R102). -/
def Payload.isParameter (p : Payload) : Bool :=
  p[2] == 0#8 && p[3] == 0#8

/-- The checks on an instruction term, one constructor after the other. -/
def Instr.wellFormed (rxMax : Nat) : Instr → Bool
  | .ptByname _ => true
  | .ptByindex _ => true
  | .addrPack _ _ _ => true
  | .addrUnpack _ => true
  | .addrSer _ _ => true
  | .payBuild _ _ _ _ => true
  | .payReset => true
  | .frameEnable _ _ => true
  | .frameDisable _ _ => true
  | .frameReset _ _ => true
  | .frameRead _ _ _ => true
  | .frameWrite _ _ _ _ _ => true
  | .serWrap _ _ _ => true
  | .decF32 rx => decide (rx.length ≤ rxMax)
  | .decResp rx => decide (rx.length ≤ rxMax)
  | .decRespSer rx => decide (rx.length ≤ rxMax)
  | .wireEnable _ _ p => p == Config.zeroPayload
  | .wireDisable _ _ p => p == Config.zeroPayload
  | .wireReset _ _ p => p == Config.resetPayload
  | .wireRead _ _ p => p.isIndexOnly
  | .wireWrite _ _ p => p.isParameter

end Sys2Proof
end

