-- ==== Sys2Proof/Decode.lean ====
section
/-! DEFINITION. From a request's bits to an operation, from a wire word to a command frame, and
back. A request is its op and then its operands in the order of 30_encoding.md R52, each at its port
width, most significant bit first; `rx` is its length, in the least width that holds `RX_MAX`, and
then its bytes (30_encoding.md R53, C11; log entries 1 and 2). A command frame is told by
`addr32[31:16]` alone (30_encoding.md R56; log entry 10). -/

namespace Sys2Proof

/-- Why a port item is no instruction: a bit string that ends before its operands do, one that goes
on after them, one whose `rx` is longer than `RX_MAX`, or a wire word that is no command frame
(log entry 3). -/
inductive DecodeError where
  | requestTooShort
  | requestTooLong
  | receivedTooLong
  | middleFieldNotZero
  | unknownCommand
deriving DecidableEq, Repr

/-! ### Bit strings -/

/-- The low `n` bits of `v`, most significant first. -/
def natBits : Nat → Nat → List Bool
  | 0, _ => []
  | n + 1, v => v.testBit n :: natBits n v

/-- A bit string read as an unsigned number, most significant bit first, behind the bits of
`acc`. -/
def bitsNat : Nat → List Bool → Nat
  | acc, [] => acc
  | acc, b :: bs => bitsNat (2 * acc + b.toNat) bs

/-- A word as a bit string, most significant bit first. -/
def wordBits {n : Nat} (w : BitVec n) : List Bool := natBits n w.toNat

/-- Take a field of `n` bits off the front of a bit string. -/
def takeField (n : Nat) (bits : List Bool) : Option (BitVec n × List Bool) :=
  if bits.length < n then none
  else some (BitVec.ofNat n (bitsNat 0 (bits.take n)), bits.drop n)

/-- Take `n` bytes off the front of a bit string. -/
def takeBytes : Nat → List Bool → Option (List Byte × List Bool)
  | 0, bits => some ([], bits)
  | n + 1, bits =>
    match takeField 8 bits with
    | none => none
    | some (b, rest) =>
      match takeBytes n rest with
      | none => none
      | some (bs, rest) => some (b :: bs, rest)

/-- The width of the field `len(rx)`: the least that holds `RX_MAX` (30_encoding.md R53, C11). -/
def rxLenBits (rxMax : Nat) : Nat := Nat.log2 rxMax + 1

/-- Take a received byte sequence: `len(rx)`, then its bytes. -/
def takeRx (rxMax : Nat) (bits : List Bool) : Option (List Byte × List Bool) :=
  match takeField (rxLenBits rxMax) bits with
  | none => none
  | some (n, rest) => takeBytes n.toNat rest

/-- The bits of a received byte sequence. -/
def rxBits (rxMax : Nat) (rx : List Byte) : List Bool :=
  natBits (rxLenBits rxMax) rx.length ++ rx.flatMap wordBits

/-- `strat`: 0 is PLAIN, 1 is ROT3 (30_encoding.md, after R57). -/
def Strategy.ofBit (b : BitVec 1) : Strategy := if b = 0#1 then .plain else .rot3

/-- The code of a strategy. -/
def Strategy.bit : Strategy → BitVec 1
  | .plain => 0#1
  | .rot3 => 1#1

/-! ### Requests -/

/-- The operands of each operation select, in table order (30_encoding.md R52); every select is
assigned. -/
def decodeOperands (rxMax : Nat) (op : BitVec 4) (r : List Bool) : Option (Instr × List Bool) :=
  match op.toNat with
  | 0 => do
    let (k, r) ← takeField 4 r
    some (.ptByname k, r)
  | 1 => do
    let (i, r) ← takeField 16 r
    some (.ptByindex i, r)
  | 2 => do
    let (c, r) ← takeField 8 r
    let (h, r) ← takeField 8 r
    let (m, r) ← takeField 8 r
    some (.addrPack c h m, r)
  | 3 => do
    let (a, r) ← takeField 32 r
    some (.addrUnpack a, r)
  | 4 => do
    let (a, r) ← takeField 32 r
    let (s, r) ← takeField 1 r
    some (.addrSer a (Strategy.ofBit s), r)
  | 5 => do
    let (g, r) ← takeField 1 r
    let (i, r) ← takeField 16 r
    let (t, r) ← takeField 2 r
    let (v, r) ← takeField 32 r
    some (.payBuild (g == 1#1) i t v, r)
  | 6 => some (.payReset, r)
  | 7 => do
    let (h, r) ← takeField 8 r
    let (m, r) ← takeField 8 r
    some (.frameEnable h m, r)
  | 8 => do
    let (h, r) ← takeField 8 r
    let (m, r) ← takeField 8 r
    some (.frameDisable h m, r)
  | 9 => do
    let (h, r) ← takeField 8 r
    let (m, r) ← takeField 8 r
    some (.frameReset h m, r)
  | 10 => do
    let (h, r) ← takeField 8 r
    let (m, r) ← takeField 8 r
    let (i, r) ← takeField 16 r
    some (.frameRead h m i, r)
  | 11 => do
    let (h, r) ← takeField 8 r
    let (m, r) ← takeField 8 r
    let (i, r) ← takeField 16 r
    let (t, r) ← takeField 2 r
    let (v, r) ← takeField 32 r
    some (.frameWrite h m i t v, r)
  | 12 => do
    let (a, r) ← takeField 32 r
    let (s, r) ← takeField 1 r
    let (p0, r) ← takeField 8 r
    let (p1, r) ← takeField 8 r
    let (p2, r) ← takeField 8 r
    let (p3, r) ← takeField 8 r
    let (p4, r) ← takeField 8 r
    let (p5, r) ← takeField 8 r
    let (p6, r) ← takeField 8 r
    let (p7, r) ← takeField 8 r
    some (.serWrap a (Strategy.ofBit s) #v[p0, p1, p2, p3, p4, p5, p6, p7], r)
  | 13 => do
    let (rx, r) ← takeRx rxMax r
    some (.decF32 rx, r)
  | 14 => do
    let (rx, r) ← takeRx rxMax r
    some (.decResp rx, r)
  | _ => do
    let (rx, r) ← takeRx rxMax r
    some (.decRespSer rx, r)

/-- A request's bit string: op, then that operation's operands, and nothing after them
(30_encoding.md R52, R62); an `rx` has at most `RX_MAX` bytes (10_state.md R17). -/
def decodeBits (rxMax : Nat) (bits : List Bool) : Except DecodeError Instr :=
  match takeField 4 bits with
  | none => .error .requestTooShort
  | some (op, r) =>
    match decodeOperands rxMax op r with
    | none => .error .requestTooShort
    | some (i, []) => if i.wellFormed rxMax then .ok i else .error .receivedTooLong
    | some (_, _ :: _) => .error .requestTooLong

/-! ### Command frames -/

/-- A command frame: the middle field must be zero and the command code one of the five; the two
address fields and the payload are its operands (30_encoding.md R50, R56). -/
def decodeFrame (addr32 : Word32) (p : Payload) : Except DecodeError Instr :=
  let host := addr32.extractLsb' 8 8
  let motor := addr32.extractLsb' 0 8
  if addr32.extractLsb' 16 8 = 0#8 then
    match (addr32.extractLsb' 24 8).toNat with
    | 3 => .ok (.wireEnable host motor p)
    | 4 => .ok (.wireDisable host motor p)
    | 6 => .ok (.wireReset host motor p)
    | 17 => .ok (.wireRead host motor p)
    | 18 => .ok (.wireWrite host motor p)
    | _ => .error .unknownCommand
  else .error .middleFieldNotZero

/-- Decode what the host gave the machine, for a value of the OPEN parameter `RX_MAX`. -/
def decode (rxMax : Nat) : Request → Except DecodeError Instr
  | .op bits => decodeBits rxMax bits
  | .frame addr32 p => decodeFrame addr32 p

/-! ### The encoder -/

/-- The bits of one payload, `p[0]` first. -/
def payloadBits (p : Payload) : List Bool := p.toList.flatMap wordBits

/-- The bits of `has_param`. -/
def flagBits (b : Bool) : List Bool := [b]

/-- The wire words of a command frame: format `ADDR` with the middle field zero
(30_encoding.md R50). -/
def frameWords (cmd hostId motorId : Byte) (p : Payload) : Request :=
  .frame (cmd ++ 0#8 ++ hostId ++ motorId : Word32) p

/-- The words of an instruction (30_encoding.md R52, R53, R56). -/
def encode (rxMax : Nat) : Instr → Request
  | .ptByname k => .op (natBits 4 0 ++ wordBits k)
  | .ptByindex i => .op (natBits 4 1 ++ wordBits i)
  | .addrPack c h m => .op (natBits 4 2 ++ (wordBits c ++ (wordBits h ++ wordBits m)))
  | .addrUnpack a => .op (natBits 4 3 ++ wordBits a)
  | .addrSer a s => .op (natBits 4 4 ++ (wordBits a ++ wordBits s.bit))
  | .payBuild g i t v =>
    .op (natBits 4 5 ++ (flagBits g ++ (wordBits i ++ (wordBits t ++ wordBits v))))
  | .payReset => .op (natBits 4 6)
  | .frameEnable h m => .op (natBits 4 7 ++ (wordBits h ++ wordBits m))
  | .frameDisable h m => .op (natBits 4 8 ++ (wordBits h ++ wordBits m))
  | .frameReset h m => .op (natBits 4 9 ++ (wordBits h ++ wordBits m))
  | .frameRead h m i => .op (natBits 4 10 ++ (wordBits h ++ (wordBits m ++ wordBits i)))
  | .frameWrite h m i t v =>
    .op (natBits 4 11 ++ (wordBits h ++ (wordBits m ++ (wordBits i ++ (wordBits t ++ wordBits v)))))
  | .serWrap a s p => .op (natBits 4 12 ++ (wordBits a ++ (wordBits s.bit ++ payloadBits p)))
  | .decF32 rx => .op (natBits 4 13 ++ rxBits rxMax rx)
  | .decResp rx => .op (natBits 4 14 ++ rxBits rxMax rx)
  | .decRespSer rx => .op (natBits 4 15 ++ rxBits rxMax rx)
  | .wireEnable h m p => frameWords Config.enableCode h m p
  | .wireDisable h m p => frameWords Config.disableCode h m p
  | .wireReset h m p => frameWords Config.resetCode h m p
  | .wireRead h m p => frameWords Config.readCode h m p
  | .wireWrite h m p => frameWords Config.writeCode h m p

/-! ### Words numbered as the opcode table numbers them -/

/-- How many operand bits follow each op; for the three decode operations the length field alone,
which is all there is of an `rx` of length zero (30_encoding.md R52, 10_state.md R17). -/
def operandBits (rxMax op : Nat) : Nat :=
  match op with
  | 0 => 4
  | 1 => 16
  | 2 => 24
  | 3 => 32
  | 4 => 33
  | 5 => 51
  | 6 => 0
  | 7 => 16
  | 8 => 16
  | 9 => 16
  | 10 => 32
  | 11 => 66
  | 12 => 97
  | _ => rxLenBits rxMax

/-- Byte `k` of the payload behind a 32-bit address word. -/
def tablePayloadByte (w k : Nat) : Byte := BitVec.ofNat 8 (w / 2 ^ (32 + 8 * k))

/-- The port item whose table word is `w`. The table has two formats (opcode_table.json): `REQ`,
whose first word is the four-bit op, and `ADDR+PAY`, whose first word is the 32-bit address. Of a
`REQ` word, bits 7:4 are the first bits of the operands; all further operand bits are zero. Behind
an address word, byte `p[k]` is bits 39+8k:32+8k (log entry 1). -/
def tableRequest (rxMax nbits w : Nat) : Request :=
  if nbits ≤ 8 then
    let op := w % 16
    .op (natBits 4 op
      ++ (natBits 4 (w / 16) ++ List.replicate (operandBits rxMax op) false).take
        (operandBits rxMax op))
  else
    .frame (BitVec.ofNat 32 w)
      #v[tablePayloadByte w 0, tablePayloadByte w 1, tablePayloadByte w 2, tablePayloadByte w 3,
        tablePayloadByte w 4, tablePayloadByte w 5, tablePayloadByte w 6, tablePayloadByte w 7]

/-- The instruction the decoder reads from the table word `w`. -/
def decodeTableWord (nbits w : Nat) : Option Instr :=
  match decode Config.rxMaxDefault (tableRequest Config.rxMaxDefault nbits w) with
  | .ok i => some i
  | .error _ => none

end Sys2Proof
end

