-- ==== Sys2Proof/Machine/State.lean ====
section
/-! DEFINITION. Everything the spec gives the machine, as plain data (10_state.md R15 to R20), and
the machine right after reset. The block itself keeps nothing from one operation to the next
(10_state.md R10 to R14); what changes is its two ports and the state of the host around it. -/

namespace Sys2Proof.Machine

/-- The result class of an operation (60_exceptions.md R200). -/
inductive Status where
  | ok
  | tooShort
  | incompleteFrame
  | unknownParameter
  | illegalOperand
deriving DecidableEq, Repr

/-- A response: a status, what R200 calls the information reported, and the result fields of
10_state.md R17. A field the operation does not list has no value (10_state.md R17,
60_exceptions.md R203). -/
structure Response where
  status : Status
  info : Option Nat := none
  addr32 : Option Word32 := none
  cmd : Option Byte := none
  mid : Option Byte := none
  hostId : Option Byte := none
  motorId : Option Byte := none
  bytes4 : Option (Vector Byte 4) := none
  p : Option Payload := none
  tx : Option (Vector Byte 17) := none
  found : Option Bool := none
  paramId : Option (BitVec 4) := none
  index : Option Half := none
  ptype : Option ParamType := none
  width : Option (BitVec 3) := none
  fval : Option F32 := none
  parameterIndex : Option Half := none
  rawValue : Option Word32 := none
  reservedBytes : Option (Vector Byte 2) := none
  tag : Option ParamType := none
  ival : Option Half := none
deriving DecidableEq, Repr

/-- The source's `ResponseFrame` (44_decode.md R140). -/
structure ResponseFrame where
  parameterIndex : Half
  rawValue : Word32
  reservedBytes : Vector Byte 2
deriving DecidableEq, Repr

/-- The OPEN parameters that are fixed before the machine is built (10_state.md R13, 00_scope.md
R4), the host's `FOLD_ARITH` among them, and the binding the host uses (43_frames.md R120; log entry
12). No step writes them; they stand in the state so that what holds in every state holds for every
value of them (log entry 5). -/
structure Params where
  rxMax : Nat
  serialMinLen : Nat
  serialAddrStrategy : Strategy
  binding : Binding
  foldArith : FoldArith
deriving DecidableEq, Repr

/-- `MotorAddress` (10_state.md R18). -/
structure MotorAddress where
  hostId : Byte
  motorId : Byte
deriving DecidableEq, Repr

/-- The session state machine (45_host_sequences.md R172). -/
inductive Phase where
  | idle
  | sending
  | awaitingReply
  | interpreting
  | timedOut
deriving DecidableEq, Repr

/-- What a host call returns to its caller: nothing, the surfaced `TransportError`, or an f32 with
the status that is passed on with it, if any (45_host_sequences.md R173 to R177). -/
inductive CallResult where
  | done
  | transportError
  | value (v : F32) (surfaced : Option Status)
deriving DecidableEq, Repr

/-- The Motor Session: `MotorState` (10_state.md R18), the phase of R172, and what the last call
returned (log entry 18). -/
structure Session where
  address : MotorAddress
  lastValue : F32
  phase : Phase
  lastCall : Option CallResult
deriving DecidableEq, Repr

/-- A command frame as it is given to `Transport.send`: identifier and data on the native binding,
the serial envelope on the serial binding (45_host_sequences.md R170). -/
inductive Handed where
  | native (identifier : Word32) (data : Payload)
  | serial (tx : Vector Byte 17)
deriving DecidableEq, Repr

/-- What `try_receive` gives after a frame was handed over: a frame, nothing inside the window, or
a failure of either transport call (45_host_sequences.md R171). -/
inductive Reply where
  | got (bytes : List Byte)
  | timeout
  | error
deriving DecidableEq, Repr

/-- The Transport as the host sees it: received frames not yet taken (10_state.md R19), the frames
handed over so far, and the model's own source of answers: a script, and behind it a counter into
a free function (log entry 8). -/
structure Transport where
  rxQueue : List (List Byte)
  handed : List Handed
  answers : List Answer
  exchanges : Nat
deriving DecidableEq, Repr

/-- The whole machine. `requests` is the request port: its head is the outstanding request, behind
it stand the requests the host makes next. `response` is the response port. -/
structure State where
  rom : List ParamSpec
  params : Params
  requests : List Request
  response : Option Response
  session : Session
  transport : Transport
deriving DecidableEq, Repr

/-- Why the machine stops with a fault. -/
inductive Fault where
  /-- Raised by the five command frames when the session is not Idle: the frame would be sent
  inside another exchange, which the spec assumes never happens (70_reset_and_hazards.md R236,
  R242). Safe: the machine stops where the outcome is a race. -/
  | exchangeInFlight
deriving DecidableEq, Repr

/-- Why the machine gives what it was handed no meaning. -/
inductive Refusal where
  /-- Raised by an arm of `exec` whose instruction has no meaning yet. Safe. -/
  | notModelled (mnemonic : String)
  /-- Raised by `step` when the port item is no request and no command frame. Safe: the spec has
  no such item (30_encoding.md R52, R62; 43_frames.md R120). -/
  | notDecoded (reason : DecodeError)
  /-- Raised by the host's `set_position`, an operation outside the block, when the current position
  or the target is a NaN or an infinity. Safe: 93_implementation_defined.md U9 gives the computation
  no meaning there and says to refuse it. -/
  | foldNotFinite
deriving DecidableEq, Repr

/-- Right after reset (10_state.md R20, 70_reset_and_hazards.md R230): the ROM holds its ten rows,
no request is outstanding, no response is valid, the session is Idle. DESIGN CHOICE: its `host_id`
is the default 253, as of a caller that gives no other (log entry 25; `State.makeSession` takes
another). The parameters have the spec's defaults or the model's (log entries 2, 5, 12, 13); what
the spec leaves unspecified is a free constant (log entries 7, 8, 18). -/
def State.reset : State where
  rom := Config.romTable
  params :=
    { rxMax := Config.rxMaxDefault
      serialMinLen := Config.serialMinLenDefault
      serialAddrStrategy := Config.serialAddrStrategyDefault
      binding := .native
      foldArith := .single }
  requests := []
  response := none
  session :=
    { address := { hostId := Config.hostIdDefault, motorId := Config.motorIdInit }
      lastValue := Config.lastValueInit
      phase := .idle
      lastCall := none }
  transport :=
    { rxQueue := Config.rxQueueInit
      handed := []
      answers := []
      exchanges := 0 }

end Sys2Proof.Machine
end

