-- ==== Sys2Proof/Machine/Ops.lean ====
section
/-! DEFINITION. The named operations every meaning is written over: byte order and fields of words
(00_scope.md R5, R6), reading received bytes in bounds, the two ports, ending an operation with a
response, and the fetch of the next port item. -/

namespace Sys2Proof.Machine

/-! ### Fields and byte order (00_scope.md R6, 20_memory.md R35) -/

/-- Byte `k` of a word, byte 0 the least significant: `w[8k+7:8k]`. -/
def byteOf {n : Nat} (w : BitVec n) (k : Nat) : Byte := w.extractLsb' (8 * k) 8

/-- `be_16`: the word whose most significant byte comes first. -/
def be16 (b0 b1 : Byte) : Half := b0 ++ b1

/-- `le_32`: the word whose least significant byte comes first. -/
def le32 (b0 b1 b2 b3 : Byte) : Word32 := b3 ++ b2 ++ b1 ++ b0

/-- `to_be(w, 4)`. -/
def toBe4 (w : Word32) : Vector Byte 4 := #v[byteOf w 3, byteOf w 2, byteOf w 1, byteOf w 0]

/-- `rotl32(w, 3)`, as 00_scope.md R5 writes it. -/
def rotl3 (w : Word32) : Word32 := (w <<< 3) ||| (w >>> 29)

/-! ### Received bytes -/

/-- `extract(rx, b)`: the eight bytes of the window at offset `b`, read as index, reserved bytes
and value (44_decode.md R140); nothing where the window is not inside `rx`. -/
def extract (rx : List Byte) (b : Nat) : Option ResponseFrame :=
  match rx.drop b with
  | i0 :: i1 :: r0 :: r1 :: v0 :: v1 :: v2 :: v3 :: _ =>
    some
      { parameterIndex := be16 i0 i1
        rawValue := le32 v0 v1 v2 v3
        reservedBytes := #v[r0, r1] }
  | _ => none

/-! ### Updates of the state, one per part -/

/-- Put a response on the response port. -/
def State.withResponse (s : State) (r : Option Response) : State := { s with response := r }

/-- Replace what stands at the request port. -/
def State.withRequests (s : State) (q : List Request) : State := { s with requests := q }

/-- Replace the session. -/
def State.withSession (s : State) (m : Session) : State := { s with session := m }

/-- Replace the transport. -/
def State.withTransport (s : State) (t : Transport) : State := { s with transport := t }

/-- Move the session to a phase (45_host_sequences.md R172). -/
def State.inPhase (s : State) (f : Phase) : State := s.withSession { s.session with phase := f }

/-! ### Ending an operation -/

/-- `return (...)` or `raise <Status>(...)`: the operation ends with its response on the response
port and nothing else happens (00_scope.md R6, R8; 60_exceptions.md R211). -/
def respond (r : Response) (s : State) : Host.Outcome State Fault Refusal :=
  .next (s.withResponse (some r))

/-! ### The ports -/

/-- The outstanding request and the state once it has been taken (20_memory.md R40). -/
def State.fetch (s : State) : Option (Request × State) :=
  match s.requests with
  | [] => none
  | r :: q => some (r, s.withRequests q)

/-- The state with one more request, in front of those that stand at the port. -/
def State.place (s : State) (r : Request) : State := s.withRequests (r :: s.requests)

/-- A reset of the block: no request outstanding, no response valid, the ROM valid; the host is not
reset with it (70_reset_and_hazards.md R230; log entry 11). -/
def State.blockReset (s : State) : State :=
  { s with rom := Config.romTable, requests := [], response := none }

/-- Go on with the next part of a host sequence, but for a call that surfaced `TransportError`,
which ends it (45_host_sequences.md R173). -/
def andThen (o : Host.Outcome State Fault Refusal)
    (f : State → Host.Outcome State Fault Refusal) : Host.Outcome State Fault Refusal :=
  match o with
  | .next s => if s.session.lastCall = some .transportError then .next s else f s
  | .fault r => .fault r
  | .refused r => .refused r

end Sys2Proof.Machine
end

