-- ==== Sys2Proof/Machine/Operands.lean ====
section
/-! DEFINITION. The operand forms: command codes, parameter types, ROM reads, the address word and
its serialisation, and the conversion of an f32 to an integer. -/

namespace Sys2Proof.Machine

/-! ### Command codes and the address word -/

/-- Whether a byte is one of the five command codes (30_encoding.md R56). -/
def isCommand (cmd : Byte) : Bool := Config.commandCodes.contains cmd

/-- `build_address`: `(cmd << 24) | (0x00 << 16) | (host_id << 8) | motor_id`
(41_address.md R90). -/
def packAddress (cmd hostId motorId : Byte) : Word32 :=
  (cmd.setWidth 32 <<< 24) ||| (0#32 <<< 16) ||| (hostId.setWidth 32 <<< 8) ||| motorId.setWidth 32

/-- The word a strategy serialises: the word itself, or the word rotated left by three
(41_address.md R96). -/
def strategyWord (addr32 : Word32) : Strategy → Word32
  | .plain => addr32
  | .rot3 => rotl3 addr32

/-- The four bytes of an address under a strategy, most significant first (41_address.md R96). -/
def serialiseAddress (addr32 : Word32) (strat : Strategy) : Vector Byte 4 :=
  toBe4 (strategyWord addr32 strat)

/-! ### Parameter types and the ROM -/

/-- `ptype[1:0]`; code 3 is reserved (30_encoding.md R54). -/
def paramTypeOf (code : BitVec 2) : Option ParamType :=
  match code.toNat with
  | 0 => some .float32
  | 1 => some .int16
  | 2 => some .int8
  | _ => none

/-- The code of a type. -/
def paramTypeCode : ParamType → BitVec 2
  | .float32 => 0#2
  | .int16 => 1#2
  | .int8 => 2#2

/-- The byte width of a type (10_state.md R15). -/
def paramWidth : ParamType → BitVec 3
  | .float32 => 4#3
  | .int16 => 2#3
  | .int8 => 1#3

/-- A ROM read by row number; a row number above 9 has no cell (20_memory.md R34). -/
def romRow (rom : List ParamSpec) (paramId : BitVec 4) : Option ParamSpec :=
  if 9 < paramId.toNat then none else rom[paramId.toNat]?

/-- The associative ROM read, from row `r` on: the row whose index is `i` and its type. -/
def romFind (i : Half) : Nat → List ParamSpec → Option (Nat × ParamType)
  | _, [] => none
  | r, row :: rows => if row.index = i then some (r, row.type) else romFind i (r + 1) rows

/-- A ROM read by index (20_memory.md R34). -/
def romLookup (rom : List ParamSpec) (i : Half) : Option (Nat × ParamType) := romFind i 0 rom

/-! ### Float to integer (42_payload.md R106)

An f32 has its sign in bit 31, eight exponent bits and 23 fraction bits (00_scope.md R7; log
entry 14). -/

/-- The exponent field. -/
def f32Exponent (v : F32) : Nat := (v.extractLsb' 23 8).toNat

/-- The fraction field. -/
def f32Fraction (v : F32) : Nat := (v.extractLsb' 0 23).toNat

/-- The sign bit. -/
def f32Negative (v : F32) : Bool := v.getLsbD 31

/-- Neither an infinity nor a NaN. -/
def f32Finite (v : F32) : Bool := f32Exponent v != 255

/-- The magnitude of a finite f32 in units of `2^-149`, the weight of the lowest fraction bit of a
subnormal: every finite f32 is a whole number of them. -/
def f32Scaled (v : F32) : Nat :=
  if f32Exponent v = 0 then f32Fraction v
  else (2 ^ 23 + f32Fraction v) * 2 ^ (f32Exponent v - 1)

/-- `|trunc(v)|`: the fractional part of the magnitude discarded (00_scope.md R6). -/
def truncMagnitude (v : F32) : Nat := f32Scaled v / 2 ^ 149

/-- `trunc(v)`, rounding toward zero. -/
def trunc (v : F32) : Int :=
  if f32Negative v then -(truncMagnitude v : Int) else (truncMagnitude v : Int)

/-- The domain of the conversion: finite, and `|trunc(v)| < 2^31`. -/
def cvtInDomain (v : F32) : Bool := f32Finite v && decide (truncMagnitude v < 2 ^ 31)

/-- `cvt(value, N)`: `trunc(v) mod 2^N` inside the domain, the low bits of `cvt_oob` outside it. -/
def cvt (n : Nat) (v : F32) : BitVec n :=
  if cvtInDomain v then BitVec.ofInt n (trunc v) else (Config.cvtOob v).setWidth n

/-! ### Payloads -/

/-- A payload that carries a parameter: the index big-endian, two zero bytes, four value bytes
(30_encoding.md R51, R58). -/
def parameterPayload (index : Half) (v0 v1 v2 v3 : Byte) : Payload :=
  #v[byteOf index 1, byteOf index 0, 0#8, 0#8, v0, v1, v2, v3]

/-- The payload of a parameter and its value, by type (30_encoding.md R59, 42_payload.md R102 to
R105). -/
def valuePayload (index : Half) (t : ParamType) (value : F32) : Payload :=
  match t with
  | .float32 =>
    parameterPayload index (byteOf value 0) (byteOf value 1) (byteOf value 2) (byteOf value 3)
  | .int16 =>
    parameterPayload index (byteOf (cvt 16 value) 0) (byteOf (cvt 16 value) 1) 0#8 0#8
  | .int8 => parameterPayload index (cvt 8 value) 0#8 0#8 0#8

/-! ### The serial envelope -/

/-- The 17 bytes of a serial frame: header, address under the strategy, length byte, payload, tail
(20_memory.md R32, 43_frames.md R132). -/
def wrap (addr32 : Word32) (strat : Strategy) (p : Payload) : Vector Byte 17 :=
  let a := serialiseAddress addr32 strat
  #v[Config.header0, Config.header1, a[0], a[1], a[2], a[3], Config.lengthByte,
    p[0], p[1], p[2], p[3], p[4], p[5], p[6], p[7], Config.tail0, Config.tail1]

end Sys2Proof.Machine
end

