-- ==== Sys2Proof/Machine/Flags.lean ====
section
/-! DEFINITION. RSFC has no flags (10_state.md R12). What takes their place is the status of a
response, and which result fields it leaves valid (60_exceptions.md R200 to R205). -/

namespace Sys2Proof.Machine

/-- The number of a status (60_exceptions.md R200). -/
def Status.code : Status → BitVec 3
  | .ok => 0#3
  | .tooShort => 1#3
  | .incompleteFrame => 2#3
  | .unknownParameter => 3#3
  | .illegalOperand => 4#3

/-- `raise <Status>(info)`: the status, the information reported, and no result field
(00_scope.md R6, 60_exceptions.md R200, R203). -/
def raise (status : Status) (info : Nat) : Response := { status := status, info := some info }

/-- The response to a reserved operand code (30_encoding.md R61). -/
def illegalOperand (info : Nat) : Response := raise .illegalOperand info

/-- The response of a lookup that hit: the row, the index, the type and its width
(40_parameter_table.md R82). -/
def foundRow (r : Nat) (i : Half) (t : ParamType) : Response :=
  { status := .ok
    found := some true
    paramId := some (BitVec.ofNat 4 r)
    index := some i
    ptype := some t
    width := some (paramWidth t) }

/-- `typed(tag, raw_value)` put into a response: the whole word as an f32, or its low 16 or 8 bits
zero-extended (44_decode.md R150). -/
def typedValue (t : ParamType) (raw : Word32) (r : Response) : Response :=
  match t with
  | .float32 => { r with tag := some .float32, fval := some raw }
  | .int16 => { r with tag := some .int16, ival := some (raw.setWidth 16) }
  | .int8 => { r with tag := some .int8, ival := some ((raw.setWidth 8).setWidth 16) }

/-- A response that carries the three fields of a `ResponseFrame` (44_decode.md R140). -/
def frameResponse (status : Status) (info : Option Nat) (f : ResponseFrame) : Response :=
  { status := status
    info := info
    parameterIndex := some f.parameterIndex
    rawValue := some f.rawValue
    reservedBytes := some f.reservedBytes }

end Sys2Proof.Machine
end

