-- ==== Sys2Proof/Machine/Address.lean ====
section
/-! DEFINITION. The address operations (41_address.md). -/

namespace Sys2Proof.Machine

/-- ADDR.PACK (R90); a command outside the five codes is an illegal operand (R91). -/
def execAddrPack (cmd hostId motorId : Byte) (s : State) : Host.Outcome State Fault Refusal :=
  if isCommand cmd then
    respond { status := .ok, addr32 := some (packAddress cmd hostId motorId) } s
  else respond (illegalOperand cmd.toNat) s

/-- ADDR.UNPACK (R93); the four raw fields are reported whether or not the word is the image of a
legal ADDR.PACK (R94). -/
def execAddrUnpack (addr32 : Word32) (s : State) : Host.Outcome State Fault Refusal :=
  let legal := isCommand (byteOf addr32 3) && byteOf addr32 2 == 0#8
  respond
    { status := if legal then .ok else .illegalOperand
      info := if legal then none else some addr32.toNat
      cmd := some (byteOf addr32 3)
      mid := some (byteOf addr32 2)
      hostId := some (byteOf addr32 1)
      motorId := some (byteOf addr32 0) } s

/-- ADDR.SER (R96). -/
def execAddrSer (addr32 : Word32) (strat : Strategy) (s : State) :
    Host.Outcome State Fault Refusal :=
  respond { status := .ok, bytes4 := some (serialiseAddress addr32 strat) } s

end Sys2Proof.Machine
end

