-- ==== Sys2Proof/Machine/Frames.lean ====
section
/-! DEFINITION. The assembly of the five command frames and the serial envelope (43_frames.md). -/

namespace Sys2Proof.Machine

/-- A command frame on the response port: the packed address and the payload (R120). -/
def respondFrame (cmd hostId motorId : Byte) (p : Payload) (s : State) :
    Host.Outcome State Fault Refusal :=
  respond { status := .ok, addr32 := some (packAddress cmd hostId motorId), p := some p } s

/-- FRAME.ENABLE (R121). -/
def execFrameEnable (hostId motorId : Byte) (s : State) : Host.Outcome State Fault Refusal :=
  respondFrame Config.enableCode hostId motorId Config.zeroPayload s

/-- FRAME.DISABLE (R122). -/
def execFrameDisable (hostId motorId : Byte) (s : State) : Host.Outcome State Fault Refusal :=
  respondFrame Config.disableCode hostId motorId Config.zeroPayload s

/-- FRAME.RESET (R123). -/
def execFrameReset (hostId motorId : Byte) (s : State) : Host.Outcome State Fault Refusal :=
  respondFrame Config.resetCode hostId motorId Config.resetPayload s

/-- FRAME.READ (R124): the index and no value (30_encoding.md R57). -/
def execFrameRead (hostId motorId : Byte) (index : Half) (s : State) :
    Host.Outcome State Fault Refusal :=
  respondFrame Config.readCode hostId motorId (parameterPayload index 0#8 0#8 0#8 0#8) s

/-- FRAME.WRITE (R125); a reserved type is an illegal operand. -/
def execFrameWrite (hostId motorId : Byte) (index : Half) (ptype : BitVec 2) (value : F32)
    (s : State) : Host.Outcome State Fault Refusal :=
  match paramTypeOf ptype with
  | none => respond (illegalOperand ptype.toNat) s
  | some t => respondFrame Config.writeCode hostId motorId (valuePayload index t value) s

/-- SER.WRAP (R132). -/
def execSerWrap (addr32 : Word32) (strat : Strategy) (p : Payload) (s : State) :
    Host.Outcome State Fault Refusal :=
  respond { status := .ok, tx := some (wrap addr32 strat p) } s

end Sys2Proof.Machine
end

