-- ==== Sys2Proof/Machine/Interpreter.lean ====
section
/-! DEFINITION. The decode operations (44_decode.md): the f32 of a payload and the Response
Interpreter with its two entry points. -/

namespace Sys2Proof.Machine

/-- The response of DEC.F32: the length check, then bytes 4 to 7 (R141). -/
def decodeFloat (rx : List Byte) : Response :=
  if rx.length < Config.nativeMinLen then raise .tooShort rx.length
  else
    match extract rx 0 with
    | none => raise .tooShort rx.length
    | some f => { status := .ok, fval := some f.rawValue }

/-- The interpreter once the window is read (R144): the lookup, giving UNKNOWN_PARAMETER with the
three fields still valid (R147), then the typed value. -/
def interpretFrame (rom : List ParamSpec) (f : ResponseFrame) : Response :=
  match romLookup rom f.parameterIndex with
  | none => frameResponse .unknownParameter (some f.parameterIndex.toNat) f
  | some (_, t) => typedValue t f.rawValue (frameResponse .ok none f)

/-- `interpret(rx, b, min_len)` (R144): the length check, then the window, then the lookup, then
the typed value (R152). A window outside `rx` is answered like a short frame, and no legal
`min_len` lets one through (R140; log entry 24). -/
def interpret (rom : List ParamSpec) (rx : List Byte) (b minLen : Nat) : Response :=
  if rx.length < minLen then raise .incompleteFrame rx.length
  else
    match extract rx b with
    | none => raise .incompleteFrame rx.length
    | some f => interpretFrame rom f

/-- The interpreter on a received payload (R145). -/
def interpretNative (s : State) (rx : List Byte) : Response :=
  interpret s.rom rx 0 Config.nativeMinLen

/-- The interpreter on a received serial frame (R146). -/
def interpretSerial (s : State) (rx : List Byte) : Response :=
  interpret s.rom rx Config.serialPayloadOffset s.params.serialMinLen

/-- DEC.F32 (R141). -/
def execDecF32 (rx : List Byte) (s : State) : Host.Outcome State Fault Refusal :=
  respond (decodeFloat rx) s

/-- DEC.RESP (R145). -/
def execDecResp (rx : List Byte) (s : State) : Host.Outcome State Fault Refusal :=
  respond (interpretNative s rx) s

/-- DEC.RESP.SER (R146). -/
def execDecRespSer (rx : List Byte) (s : State) : Host.Outcome State Fault Refusal :=
  respond (interpretSerial s rx) s

end Sys2Proof.Machine
end

