-- ==== Sys2Proof/Machine/ParamTable.lean ====
section
/-! DEFINITION. The Parameter Table operations (40_parameter_table.md). -/

namespace Sys2Proof.Machine

/-- PT.BYNAME (R80); a reserved name is an illegal operand (R81). -/
def execPtByname (paramId : BitVec 4) (s : State) : Host.Outcome State Fault Refusal :=
  match romRow s.rom paramId with
  | none => respond (illegalOperand paramId.toNat) s
  | some row =>
    respond
      { status := .ok
        index := some row.index
        ptype := some row.type
        width := some (paramWidth row.type) } s

/-- PT.BYINDEX (R82); a miss is an ordinary answer. -/
def execPtByindex (index : Half) (s : State) : Host.Outcome State Fault Refusal :=
  match romLookup s.rom index with
  | none => respond { status := .ok, found := some false } s
  | some (r, t) => respond (foundRow r index t) s

end Sys2Proof.Machine
end

