-- ==== Sys2Proof/Machine/PayloadOps.lean ====
section
/-! DEFINITION. The payload operations (42_payload.md). -/

namespace Sys2Proof.Machine

/-- PAY.BUILD (R100): all zero with no parameter, whatever the other operands hold (R101); a
reserved type is an illegal operand; otherwise the payload of the index and the value (R102 to
R105). -/
def execPayBuild (hasParam : Bool) (index : Half) (ptype : BitVec 2) (value : F32) (s : State) :
    Host.Outcome State Fault Refusal :=
  if hasParam then
    match paramTypeOf ptype with
    | none => respond (illegalOperand ptype.toNat) s
    | some t => respond { status := .ok, p := some (valuePayload index t value) } s
  else respond { status := .ok, p := some Config.zeroPayload } s

/-- PAY.RESET (R110). -/
def execPayReset (s : State) : Host.Outcome State Fault Refusal :=
  respond { status := .ok, p := some Config.resetPayload } s

end Sys2Proof.Machine
end

