-- ==== Sys2Proof/Machine/Wire.lean ====
section
/-! DEFINITION. The five command frames as the host sends them: one exchange each
(45_host_sequences.md R170 to R177, 43_frames.md R126). The block takes no part in an exchange: no
field of the block changes. What the motor does with a frame is in no source (00_scope.md R3); the
transport's answer is a script in the state and, behind it, a free value (log entries 8 and 9). -/

namespace Sys2Proof.Machine

/-- The transport's answer in the coming exchange, and the transport once it is used up: the script
first, then the free oracle (log entry 8). -/
def Transport.nextAnswer (t : Transport) : Answer :=
  match t.answers with
  | a :: _ => a
  | [] => Config.transportOracle t.exchanges

/-- The transport with the coming exchange's answer used up. -/
def Transport.advance (t : Transport) : Transport :=
  { t with answers := t.answers.tail, exchanges := t.exchanges + 1 }

/-- A command frame in the form the binding's transport takes (R170). -/
def State.handedForm (s : State) (addr32 : Word32) (p : Payload) : Handed :=
  match s.params.binding with
  | .native => .native addr32 p
  | .serial => .serial (wrap addr32 s.params.serialAddrStrategy p)

/-- The receive queue when the frame is sent: what was queued and what came in since; before a Read
on the native binding the host discards all of it (R176). -/
def State.queueAtSend (s : State) (isRead : Bool) : List (List Byte) :=
  if isRead && s.params.binding == .native then []
  else s.transport.rxQueue ++ s.transport.nextAnswer.early

/-- Idle to Sending: the frame is handed to `Transport.send`. -/
def State.sendFrame (s : State) (isRead : Bool) (addr32 : Word32) (p : Payload) : State :=
  (s.withTransport
    { s.transport.advance with
      rxQueue := s.queueAtSend isRead
      handed := s.transport.handed ++ [s.handedForm addr32 p] }).inPhase .sending

/-- Sending to AwaitingReply: the frames of the reply window join the queue. -/
def State.awaitReply (s : State) (a : Answer) : State :=
  (s.withTransport { s.transport with rxQueue := s.transport.rxQueue ++ a.inWindow }).inPhase
    .awaitingReply

/-- AwaitingReply to Interpreting with the oldest queued frame, or to TimedOut with none. -/
def State.takeReply (s : State) : Reply × State :=
  match s.transport.rxQueue with
  | [] => (.timeout, s.inPhase .timedOut)
  | f :: q => (.got f, (s.withTransport { s.transport with rxQueue := q }).inPhase .interpreting)

/-- One exchange up to its reply (R170): `send`, then `try_receive`; a failure of either is
`TransportError` (R171, R173). DESIGN CHOICE: what a failure leaves in the receive queue is not in
the spec; here nothing that was received is lost, the frames of the window included where the
receive fails, and no frame of the window comes in where `send` fails (log entry 26). An exchange
its caller abandons is no move of its own: what its transport then does is an answer like any other,
a timeout or a failure (log entry 28). -/
def State.exchange (s : State) (isRead : Bool) (addr32 : Word32) (p : Payload) : Reply × State :=
  let a := s.transport.nextAnswer
  let sent := s.sendFrame isRead addr32 p
  if a.sendOk then
    let waiting := sent.awaitReply a
    if a.receiveOk then waiting.takeReply else (.error, waiting)
  else (.error, sent)

/-- Back to Idle, the call returning to its caller (R172). -/
def State.finishCall (s : State) (lastValue : F32) (r : CallResult) : State :=
  s.withSession { s.session with lastValue := lastValue, phase := .idle, lastCall := some r }

/-- The end of a call whose reply is drained: a timeout is no error, a `TransportError` is surfaced
(R173 to R175). -/
def State.finishDrained (s : State) (r : Reply) : State :=
  s.finishCall s.session.lastValue
    (match r with
      | .error => .transportError
      | .timeout => .done
      | .got _ => .done)

/-- The Response Interpreter on a reply, in the layout of the binding (R176). -/
def State.interpretReply (s : State) (rx : List Byte) : Response :=
  match s.params.binding with
  | .native => interpretNative s rx
  | .serial => interpretSerial s rx

/-- The status the host passes on with the float of a reply: `UNKNOWN_PARAMETER` only (R176,
D28). -/
def surfacedStatus : Status → Option Status
  | .unknownParameter => some .unknownParameter
  | .ok => none
  | .tooShort => none
  | .incompleteFrame => none
  | .illegalOperand => none

/-- The end of `read_parameter` (R176): the float view of the reply's raw value becomes
`last_value` and is returned (44_decode.md R151); on a timeout, or a reply the interpreter finds
incomplete, the old `last_value` is returned unchanged (R177). -/
def State.finishRead (s : State) (r : Reply) : State :=
  match r with
  | .error => s.finishCall s.session.lastValue .transportError
  | .timeout => s.finishCall s.session.lastValue (.value s.session.lastValue none)
  | .got rx =>
    match (s.interpretReply rx).rawValue with
    | none => s.finishCall s.session.lastValue (.value s.session.lastValue none)
    | some w => s.finishCall w (.value w (surfacedStatus (s.interpretReply rx).status))

/-- A command frame whose reply is drained (43_frames.md R126); begun inside another exchange, a
race (70_reset_and_hazards.md R236). DESIGN CHOICE: the frame may carry any address, and one that is
not the session's own is this session's exchange all the same (log entry 29). -/
def sendAndDrain (addr32 : Word32) (p : Payload) (s : State) : Host.Outcome State Fault Refusal :=
  if s.session.phase = .idle then
    .next ((s.exchange false addr32 p).2.finishDrained (s.exchange false addr32 p).1)
  else .fault .exchangeInFlight

/-- A command frame whose reply is decoded (43_frames.md R126). DESIGN CHOICE: the frame may carry
any address, and the reply to one that is not the session's own is written into this session's
`last_value` all the same (log entry 29). -/
def sendAndRead (addr32 : Word32) (p : Payload) (s : State) : Host.Outcome State Fault Refusal :=
  if s.session.phase = .idle then
    .next ((s.exchange true addr32 p).2.finishRead (s.exchange true addr32 p).1)
  else .fault .exchangeInFlight

/-- ENABLE (43_frames.md R121, 45_host_sequences.md R174). -/
def execWireEnable (hostId motorId : Byte) (p : Payload) (s : State) :
    Host.Outcome State Fault Refusal :=
  sendAndDrain (packAddress Config.enableCode hostId motorId) p s

/-- DISABLE (43_frames.md R122, 45_host_sequences.md R174). -/
def execWireDisable (hostId motorId : Byte) (p : Payload) (s : State) :
    Host.Outcome State Fault Refusal :=
  sendAndDrain (packAddress Config.disableCode hostId motorId) p s

/-- RESET (43_frames.md R123, 45_host_sequences.md R174). -/
def execWireReset (hostId motorId : Byte) (p : Payload) (s : State) :
    Host.Outcome State Fault Refusal :=
  sendAndDrain (packAddress Config.resetCode hostId motorId) p s

/-- READ (43_frames.md R124, 45_host_sequences.md R176), of the session's own motor or, by the
model's choice, of another (log entry 29). -/
def execWireRead (hostId motorId : Byte) (p : Payload) (s : State) :
    Host.Outcome State Fault Refusal :=
  sendAndRead (packAddress Config.readCode hostId motorId) p s

/-- WRITE (43_frames.md R125, 45_host_sequences.md R175). -/
def execWireWrite (hostId motorId : Byte) (p : Payload) (s : State) :
    Host.Outcome State Fault Refusal :=
  sendAndDrain (packAddress Config.writeCode hostId motorId) p s

end Sys2Proof.Machine
end

