-- ==== Sys2Proof/Machine/Dispatch.lean ====
section
/-! DEFINITION. One arm per constructor of Instr. -/

namespace Sys2Proof.Machine

def exec (i : Instr) (s : State) : Host.Outcome State Fault Refusal :=
  match i with
  | .ptByname paramId => Sys2Proof.Machine.execPtByname paramId s
  | .ptByindex index => Sys2Proof.Machine.execPtByindex index s
  | .addrPack cmd hostId motorId => Sys2Proof.Machine.execAddrPack cmd hostId motorId s
  | .addrUnpack addr32 => Sys2Proof.Machine.execAddrUnpack addr32 s
  | .addrSer addr32 strat => Sys2Proof.Machine.execAddrSer addr32 strat s
  | .payBuild hasParam index ptype value => Sys2Proof.Machine.execPayBuild hasParam index ptype value s
  | .payReset => Sys2Proof.Machine.execPayReset s
  | .frameEnable hostId motorId => Sys2Proof.Machine.execFrameEnable hostId motorId s
  | .frameDisable hostId motorId => Sys2Proof.Machine.execFrameDisable hostId motorId s
  | .frameReset hostId motorId => Sys2Proof.Machine.execFrameReset hostId motorId s
  | .frameRead hostId motorId index => Sys2Proof.Machine.execFrameRead hostId motorId index s
  | .frameWrite hostId motorId index ptype value => Sys2Proof.Machine.execFrameWrite hostId motorId index ptype value s
  | .serWrap addr32 strat p => Sys2Proof.Machine.execSerWrap addr32 strat p s
  | .decF32 rx => Sys2Proof.Machine.execDecF32 rx s
  | .decResp rx => Sys2Proof.Machine.execDecResp rx s
  | .decRespSer rx => Sys2Proof.Machine.execDecRespSer rx s
  | .wireEnable hostId motorId p => Sys2Proof.Machine.execWireEnable hostId motorId p s
  | .wireDisable hostId motorId p => Sys2Proof.Machine.execWireDisable hostId motorId p s
  | .wireReset hostId motorId p => Sys2Proof.Machine.execWireReset hostId motorId p s
  | .wireRead hostId motorId p => Sys2Proof.Machine.execWireRead hostId motorId p s
  | .wireWrite hostId motorId p => Sys2Proof.Machine.execWireWrite hostId motorId p s

end Sys2Proof.Machine
end

