-- ==== Sys2Proof/Machine/Step.lean ====
section
/-! DEFINITION. One step: take the outstanding request and run it (20_memory.md R40). With no
request outstanding nothing happens (log entry 4). -/

namespace Sys2Proof.Machine

/-- One step of the machine. -/
def step (s : State) : Host.Outcome State Fault Refusal :=
  match s.fetch with
  | none => .next s
  | some (r, s') =>
    match decode s.params.rxMax r with
    | .error e => .refused (.notDecoded e)
    | .ok i => exec i s'

/-- The state whose outstanding request is the table word `w`, what stood at the port behind it
(log entry 22). -/
def State.withFetchWord (s : State) (nbits w : Nat) : State :=
  s.place (tableRequest s.params.rxMax nbits w)

end Sys2Proof.Machine
end

