-- ==== Sys2Proof/Machine/Fold.lean ====
section
/-! DEFINITION. The multi-turn fold of `set_position`, the host's own floating-point arithmetic
(45_host_sequences.md R180): each operation is done exactly on rationals and its result rounded to
the format `FOLD_ARITH` names (91_not_in_source.md N18). PRESUMED: the formats and the rounding to
nearest, ties to even, are IEEE-754's (log entry 13). -/

namespace Sys2Proof.Machine

/-- A binary floating-point format: the bits of its significand, the exponent of its smallest
subnormal, and the exponent of the magnitude from which it has no finite number. -/
structure FloatFormat where
  precision : Nat
  minExponent : Int
  maxExponent : Int
deriving DecidableEq, Repr

/-- The format of an f32. -/
def FloatFormat.single : FloatFormat := ⟨24, -149, 128⟩

/-- The format of a 64-bit float. -/
def FloatFormat.double : FloatFormat := ⟨53, -1074, 1024⟩

/-- `2^e`. -/
def pow2 : Int → Rat
  | .ofNat n => (2 ^ n : Nat)
  | .negSucc n => mkRat 1 (2 ^ (n + 1))

/-- The exponent `e` with `2^e ≤ q < 2^(e + 1)`, of a positive `q`. -/
def ilog2 (q : Rat) : Int :=
  let e : Int := (Nat.log2 q.num.toNat : Int) - Nat.log2 q.den
  if pow2 e ≤ q then e else e - 1

/-- The greatest integer that is not above `q`. -/
def wholePart (q : Rat) : Int := q.num / q.den

/-- The integer nearest to `q`, of two equally near the even one. -/
def roundEven (q : Rat) : Int :=
  let down := wholePart q
  if q - down < 1 / 2 then down
  else if 1 / 2 < q - down then down + 1
  else if down % 2 = 0 then down
  else down + 1

/-- The exponent of the spacing of a format's numbers around `q`. -/
def FloatFormat.spacing (fmt : FloatFormat) (q : Rat) : Int :=
  max (ilog2 |q| - (fmt.precision - 1 : Int)) fmt.minExponent

/-- A result rounded to a format; nothing where its magnitude is beyond the format's finite
numbers. -/
def FloatFormat.round (fmt : FloatFormat) (q : Rat) : Option Rat :=
  if q = 0 then some 0
  else
    let v : Rat := roundEven (q / pow2 (fmt.spacing q)) * pow2 (fmt.spacing q)
    if |v| < pow2 fmt.maxExponent then some v else none

/-- The intermediate format (00_scope.md R4, `FOLD_ARITH`). -/
def foldFormat : FoldArith → FloatFormat
  | .single => .single
  | .double => .double

/-- `π` in the intermediate format, the nearest number to it: as an f32 the pattern 0x40490FDB
(91_not_in_source.md N18), as a 64-bit float 0x400921FB54442D18 (log entry 13). -/
def foldPi : FoldArith → Rat
  | .single => mkRat 13176795 (2 ^ 22)
  | .double => mkRat 7074237752028440 (2 ^ 51)

/-- The number an f32 pattern stands for; none for a NaN or an infinity. -/
def f32Value (v : F32) : Option Rat :=
  if f32Finite v then
    some (if f32Negative v then -mkRat (f32Scaled v) (2 ^ 149) else mkRat (f32Scaled v) (2 ^ 149))
  else none

/-- Bits 30:0 of the f32 whose magnitude is `n` times the smallest subnormal. -/
def f32Magnitude (n : Nat) : Nat :=
  if n < 2 ^ 23 then n else (Nat.log2 n - 23) * 2 ^ 23 + n / 2 ^ (Nat.log2 n - 23)

/-- The pattern of a number of the single format; the sign of a zero is given beside it. -/
def f32Pattern (q : Rat) (zeroNegative : Bool) : F32 :=
  let negative : Bool := if q = 0 then zeroNegative else decide (q < 0)
  BitVec.ofNat 32
    ((if negative then 2 ^ 31 else 0) + f32Magnitude (wholePart (|q| * (2 ^ 149 : Nat))).toNat)

/-- Step 1 of the fold: a target more than `π` above or below the current position moves by `2π`
towards it (R180). -/
def foldStep1 (arith : FoldArith) (current target : Rat) : Option Rat := do
  let delta ← (foldFormat arith).round (target - current)
  let lowered ←
    if foldPi arith < delta then (foldFormat arith).round (target - 2 * foldPi arith)
    else some target
  if delta < -foldPi arith then (foldFormat arith).round (lowered + 2 * foldPi arith)
  else some lowered

/-- `round`: the nearest integer, a tie going as `Config.foldTieUp` says. -/
def roundTurns (q : Rat) : Int :=
  let down := wholePart q
  if q - down < 1 / 2 then down
  else if 1 / 2 < q - down then down + 1
  else if Config.foldTieUp down then down + 1
  else down

/-- Step 2 of the fold: the target moves by the whole turns between it and the current position
(R180). -/
def foldStep2 (arith : FoldArith) (current target : Rat) : Option Rat := do
  let back ← (foldFormat arith).round (current - target)
  let turns ← (foldFormat arith).round (back / (2 * foldPi arith))
  let move ← (foldFormat arith).round (roundTurns turns * (2 * foldPi arith))
  (foldFormat arith).round (target + move)

/-- Both steps, and the result rounded to an f32. -/
def foldSteps (arith : FoldArith) (current target : Rat) : Option Rat := do
  let stepped ← foldStep1 arith current target
  let folded ← foldStep2 arith current stepped
  FloatFormat.single.round folded

/-- The folded target; none where an input is a NaN or an infinity (93_implementation_defined.md
U9). Where a step leaves the format's finite numbers it is a free value. -/
def foldTarget (arith : FoldArith) (current target : F32) : Option F32 :=
  match f32Value current, f32Value target with
  | some c, some t =>
    match foldSteps arith c t with
    | some v => some (f32Pattern v (Config.foldZeroNegative current target))
    | none => some (Config.foldOverflow current target)
  | _, _ => none

end Sys2Proof.Machine
end

