-- ==== Sys2Proof/Machine/Session.lean ====
section
/-! DEFINITION. The Motor Session's public operations (30_encoding.md R64, 45_host_sequences.md
R174 to R181): straight-line sequences of command frames with the session's own address. They are
the host's, outside the block, and no row of the opcode table; `step` runs none of them. -/

namespace Sys2Proof.Machine

/-- A session is made with the address its caller gives, `host_id` 253 unless given
(70_reset_and_hazards.md R231, 10_state.md R20). Its `last_value` is `LAST_VALUE_INIT`. -/
def State.makeSession (s : State) (hostId : Option Byte) (motorId : Byte) : State :=
  s.withSession
    { address := { hostId := hostId.getD Config.hostIdDefault, motorId := motorId }
      lastValue := Config.lastValueInit
      phase := .idle
      lastCall := none }

/-- `enable()` (R174). -/
def hostEnable (s : State) : Host.Outcome State Fault Refusal :=
  execWireEnable s.session.address.hostId s.session.address.motorId Config.zeroPayload s

/-- `disable()` (R174). -/
def hostDisable (s : State) : Host.Outcome State Fault Refusal :=
  execWireDisable s.session.address.hostId s.session.address.motorId Config.zeroPayload s

/-- `reset_position()` (R174). -/
def hostResetPosition (s : State) : Host.Outcome State Fault Refusal :=
  execWireReset s.session.address.hostId s.session.address.motorId Config.resetPayload s

/-- `write_parameter(spec, value)` (R175). -/
def hostWriteParameter (spec : ParamSpec) (value : F32) (s : State) :
    Host.Outcome State Fault Refusal :=
  execWireWrite s.session.address.hostId s.session.address.motorId
    (valuePayload spec.index spec.type value) s

/-- `read_parameter(spec)` (R176). -/
def hostReadParameter (spec : ParamSpec) (s : State) : Host.Outcome State Fault Refusal :=
  execWireRead s.session.address.hostId s.session.address.motorId
    (parameterPayload spec.index 0#8 0#8 0#8 0#8) s

/-- The frames of `set_position` once the target is folded (R180, step 3). -/
def hostMoveTo (folded speed maxAcc : F32) (s : State) : Host.Outcome State Fault Refusal :=
  andThen (hostWriteParameter Config.runMode Config.positionMode s) fun s =>
  andThen (hostEnable s) fun s =>
  andThen (hostWriteParameter Config.positionSpeedLimit speed s) fun s =>
  andThen (hostWriteParameter Config.position03Speed speed s) fun s =>
  andThen (hostWriteParameter Config.positionAcceleration maxAcc s) fun s =>
  hostWriteParameter Config.positionTarget folded s

/-- `set_position(target_rad, speed, max_acc)` (R180): the position is read first, and the value
the read returned, fresh or stale, is what the target is folded against. A NaN or an infinity in the
fold is refused (93_implementation_defined.md U9). DESIGN CHOICE: an `UNKNOWN_PARAMETER` the read
passes on is ignored, the float it came with is used, and the status is lost (log entry 27). -/
def hostSetPosition (target speed maxAcc : F32) (s : State) : Host.Outcome State Fault Refusal :=
  andThen (hostReadParameter Config.mechPos s) fun s =>
  match foldTarget s.params.foldArith s.session.lastValue target with
  | some folded => hostMoveTo folded speed maxAcc s
  | none => .refused .foldNotFinite

/-- `set_position(target_rad)` with the default speed and acceleration (R180). -/
def hostSetPositionDefault (target : F32) (s : State) : Host.Outcome State Fault Refusal :=
  hostSetPosition target Config.defaultSpeed Config.defaultMaxAcc s

/-- `set_velocity(target_rad_s, max_acc, max_current)` (R181). -/
def hostSetVelocity (target maxAcc maxCurrent : F32) (s : State) :
    Host.Outcome State Fault Refusal :=
  andThen (hostWriteParameter Config.runMode Config.velocityMode s) fun s =>
  andThen (hostEnable s) fun s =>
  andThen (hostWriteParameter Config.speedMaxCurrent maxCurrent s) fun s =>
  andThen (hostWriteParameter Config.speedAcceleration maxAcc s) fun s =>
  hostWriteParameter Config.speedTarget target s

/-- `set_velocity(target_rad_s)` with the default acceleration and current (R181). -/
def hostSetVelocityDefault (target : F32) (s : State) : Host.Outcome State Fault Refusal :=
  hostSetVelocity target Config.defaultMaxAcc Config.defaultMaxCurrent s

end Sys2Proof.Machine
end

