-- ==== Sys2Proof/Safety.lean ====
section
/-! DEFINITION. The terms in which claims speak: the legal parameters, the invariant of the machine,
what a codec operation may change, which responses and which frames are legal. -/

namespace Sys2Proof.Machine

/-- The legal values of the OPEN parameters `RX_MAX` and `SERIAL_MIN_LEN` (00_scope.md R4). -/
def Params.Legal (c : Params) : Prop :=
  17 ≤ c.rxMax ∧ 15 ≤ c.serialMinLen ∧ c.serialMinLen ≤ 17

/-- The invariant: the ROM holds its ten rows (10_state.md R15), the parameters are legal, and no
exchange is in flight between steps (45_host_sequences.md R172). -/
def State.Inv (s : State) : Prop :=
  s.rom = Config.romTable ∧ s.params.Legal ∧ s.session.phase = .idle

/-- Everything but the response port is as before: the frame of a codec operation
(00_scope.md R8). -/
def OnlyResponseChanged (s t : State) : Prop :=
  t.rom = s.rom ∧ t.params = s.params ∧ t.requests = s.requests ∧ t.session = s.session ∧
    t.transport = s.transport

/-- The block is as before, and so are the host's address, its script's use and the count of
exchanges as one exchange uses them up: the frame of a command frame. -/
def OnlyHostChanged (s t : State) : Prop :=
  t.rom = s.rom ∧ t.params = s.params ∧ t.requests = s.requests ∧ t.response = s.response ∧
    t.session.address = s.session.address ∧
    t.transport.answers = s.transport.answers.tail ∧
    t.transport.exchanges = s.transport.exchanges + 1

/-- An operation ends with a next state that differs from `s` in the response port only, and there
the response is `r`. -/
def AnswersOnly (o : Host.Outcome State Fault Refusal) (s : State) (r : Response) : Prop :=
  ∃ t, o = .next t ∧ t.response = some r ∧ OnlyResponseChanged s t

/-- A packed address: a command code in bits 31:24 and zero in bits 23:16 (30_encoding.md R50,
R56). -/
def IsPackedAddress (a : Word32) : Prop :=
  a.extractLsb' 24 8 ∈ [3#8, 4#8, 6#8, 17#8, 18#8] ∧ a.extractLsb' 16 8 = 0#8

/-- The five serial bytes the host's binding puts around a frame, and a packed address inside, under
one of the two strategies (20_memory.md R32). -/
def IsSerialFrame (tx : Vector Byte 17) : Prop :=
  (tx[0] = 0x41#8 ∧ tx[1] = 0x54#8 ∧ tx[6] = 0x08#8 ∧ tx[15] = 0x0D#8 ∧ tx[16] = 0x0A#8) ∧
    ∃ a : Word32, IsPackedAddress a ∧
      (tx[2] ++ tx[3] ++ tx[4] ++ tx[5] = a ∨ tx[2] ++ tx[3] ++ tx[4] ++ tx[5] = a.rotateLeft 3)

/-- A frame the host may hand to its transport: one of the five command frames, in the form of
either binding (43_frames.md R120). -/
def Handed.Legal : Handed → Prop
  | .native identifier _ => IsPackedAddress identifier
  | .serial tx => IsSerialFrame tx

/-- The answers of the transport in its next exchanges, in order: those of the script, and behind it
those of the free oracle (log entry 8). -/
def Transport.upcoming : Nat → Transport → List Answer
  | 0, _ => []
  | n + 1, t => t.nextAnswer :: t.advance.upcoming n

/-- The finite numbers of a floating-point format, whatever their magnitude: a significand of
`precision` bits times a power of two no smaller than the smallest subnormal. -/
def FloatFormat.Has (fmt : FloatFormat) (v : Rat) : Prop :=
  ∃ m e : Int, |m| < 2 ^ fmt.precision ∧ fmt.minExponent ≤ e ∧ v = m * (2 : Rat) ^ e

/-- The result fields of a response, all with no value. -/
def Response.NoResult (r : Response) : Prop :=
  r.addr32 = none ∧ r.cmd = none ∧ r.mid = none ∧ r.hostId = none ∧ r.motorId = none ∧
    r.bytes4 = none ∧ r.p = none ∧ r.tx = none ∧ r.found = none ∧ r.paramId = none ∧
    r.index = none ∧ r.ptype = none ∧ r.width = none ∧ r.fval = none ∧
    r.parameterIndex = none ∧ r.rawValue = none ∧ r.reservedBytes = none ∧ r.tag = none ∧
    r.ival = none

/-- The response with its `ResponseFrame` fields taken away. -/
def Response.withoutFrame (r : Response) : Response :=
  { r with parameterIndex := none, rawValue := none, reservedBytes := none }

/-- The response with the four raw address fields taken away. -/
def Response.withoutRawFields (r : Response) : Response :=
  { r with cmd := none, mid := none, hostId := none, motorId := none }

/-- Which result fields a status leaves valid (60_exceptions.md R203): none on `TOO_SHORT` and
`INCOMPLETE_FRAME`; the three `ResponseFrame` fields on `UNKNOWN_PARAMETER`; on `ILLEGAL_OPERAND`
none, or the four raw fields all together. -/
def Response.FieldsFit (r : Response) : Prop :=
  match r.status with
  | .ok => True
  | .tooShort => r.NoResult
  | .incompleteFrame => r.NoResult
  | .unknownParameter =>
    r.withoutFrame.NoResult ∧ r.parameterIndex.isSome ∧ r.rawValue.isSome ∧ r.reservedBytes.isSome
  | .illegalOperand =>
    r.NoResult ∨
      (r.withoutRawFields.NoResult ∧ r.cmd.isSome ∧ r.mid.isSome ∧ r.hostId.isSome ∧
        r.motorId.isSome)

/-- Every response that stands at the port has only the fields its status leaves valid. -/
def State.ResponseFits (s : State) : Prop := ∀ r, s.response = some r → r.FieldsFit

/-- Every frame handed over so far is one of the five command frames. -/
def State.HandedLegal (s : State) : Prop := ∀ f ∈ s.transport.handed, f.Legal

end Sys2Proof.Machine
end

