-- ==== Sys2Proof/Certificates/Slice0/Obligations.lean ====
section
/-! DEFINITION. The statements for the provers, from the numbered rules of spec/. `AnswersOnly o s
r` says that an operation ends with a next state that differs from `s` in the response port alone,
where `r` stands: the result and the frame of a codec operation at once. -/

open Sys2Proof Sys2Proof.Machine

/-! ### Parameter Table (40_parameter_table.md) -/

/-- R80, R81: PT.BYNAME gives each of the ten names its index, type and width, and answers a
reserved name with ILLEGAL_OPERAND. -/
def Obligations.PtBynameAnswersRow : Prop :=
  ∀ s : State, s.rom = Config.romTable →
    (∀ row ∈ ([(0, 0x0570, .int8, 1), (1, 0x1870, .float32, 4), (2, 0x0A70, .float32, 4),
          (3, 0x1770, .float32, 4), (4, 0x1670, .float32, 4), (5, 0x1970, .float32, 4),
          (6, 0x1B70, .float32, 4), (7, 0x2270, .float32, 4), (8, 0x2470, .float32, 4),
          (9, 0x2570, .float32, 4)] : List (BitVec 4 × Half × ParamType × BitVec 3)),
        AnswersOnly (exec (.ptByname row.1) s) s
          { status := .ok, index := some row.2.1, ptype := some row.2.2.1,
            width := some row.2.2.2 }) ∧
      ∀ k : BitVec 4, 9 < k.toNat →
        AnswersOnly (exec (.ptByname k) s) s { status := .illegalOperand, info := some k.toNat }

/-- R82: PT.BYINDEX reports the row whose index is the operand, or found = 0, always with OK. -/
def Obligations.PtByindexHitsOrMisses : Prop :=
  ∀ (s : State) (i : Half), s.rom = Config.romTable →
    (∀ (r : Nat) (row : ParamSpec), Config.romTable[r]? = some row → row.index = i →
        AnswersOnly (exec (.ptByindex i) s) s
          { status := .ok, found := some true, paramId := some (BitVec.ofNat 4 r),
            index := some i, ptype := some row.type,
            width := some (match row.type with
              | .float32 => 4#3
              | .int16 => 2#3
              | .int8 => 1#3) }) ∧
      ((∀ row ∈ Config.romTable, row.index ≠ i) →
        AnswersOnly (exec (.ptByindex i) s) s { status := .ok, found := some false })

/-- R83: a name's index is found again under the same name, type and width, and an index that is
found is the index of the name it is found under. -/
def Obligations.LookupsAgree : Prop :=
  ∀ s : State, s.rom = Config.romTable →
    (∀ k : BitVec 4, k.toNat ≤ 9 → ∃ i t w,
        AnswersOnly (exec (.ptByname k) s) s
          { status := .ok, index := some i, ptype := some t, width := some w } ∧
        AnswersOnly (exec (.ptByindex i) s) s
          { status := .ok, found := some true, paramId := some k, index := some i,
            ptype := some t, width := some w }) ∧
      ∀ (i : Half) (k : BitVec 4) (r : Response),
        AnswersOnly (exec (.ptByindex i) s) s r → r.found = some true → r.paramId = some k →
          ∃ r', AnswersOnly (exec (.ptByname k) s) s r' ∧ r'.status = .ok ∧ r'.index = some i

/-! ### Addresses (41_address.md) -/

/-- R90, R91: ADDR.PACK puts each operand into its own field, bits 23:16 and 31:29 zero, and
answers a reserved command with ILLEGAL_OPERAND and no address. -/
def Obligations.AddrPackPlacesFields : Prop :=
  ∀ (s : State) (cmd h m : Byte),
    (cmd ∈ [3#8, 4#8, 6#8, 17#8, 18#8] → ∃ a : Word32,
        AnswersOnly (exec (.addrPack cmd h m) s) s { status := .ok, addr32 := some a } ∧
        a.toNat = cmd.toNat * 2 ^ 24 + h.toNat * 2 ^ 8 + m.toNat ∧
        a.extractLsb' 24 8 = cmd ∧ a.extractLsb' 16 8 = 0#8 ∧ a.extractLsb' 8 8 = h ∧
        a.extractLsb' 0 8 = m ∧ a.extractLsb' 29 3 = 0#3) ∧
      (cmd ∉ [3#8, 4#8, 6#8, 17#8, 18#8] →
        AnswersOnly (exec (.addrPack cmd h m) s) s
          { status := .illegalOperand, info := some cmd.toNat })

/-- R92: two legal packings that give the same word have the same operands. -/
def Obligations.AddrPackIsInjective : Prop :=
  ∀ (s u : State) (cmd h m cmd' h' m' : Byte) (a : Word32),
    AnswersOnly (exec (.addrPack cmd h m) s) s { status := .ok, addr32 := some a } →
    AnswersOnly (exec (.addrPack cmd' h' m') u) u { status := .ok, addr32 := some a } →
    cmd = cmd' ∧ h = h' ∧ m = m'

/-- R94, with the fields of R93: ADDR.UNPACK reports the four byte fields of every word, with OK on
a packed address and with ILLEGAL_OPERAND on any other word, which no ADDR.PACK gives. -/
def Obligations.AddrUnpackReportsFields : Prop :=
  ∀ (s : State) (a : Word32),
    (IsPackedAddress a →
        AnswersOnly (exec (.addrUnpack a) s) s
          { status := .ok, cmd := some (a.extractLsb' 24 8), mid := some (a.extractLsb' 16 8),
            hostId := some (a.extractLsb' 8 8), motorId := some (a.extractLsb' 0 8) }) ∧
      (¬IsPackedAddress a →
        AnswersOnly (exec (.addrUnpack a) s) s
          { status := .illegalOperand, info := some a.toNat, cmd := some (a.extractLsb' 24 8),
            mid := some (a.extractLsb' 16 8), hostId := some (a.extractLsb' 8 8),
            motorId := some (a.extractLsb' 0 8) } ∧
          ∀ (u : State) (cmd h m : Byte),
            ¬AnswersOnly (exec (.addrPack cmd h m) u) u { status := .ok, addr32 := some a })

/-- R93: what ADDR.PACK packs, ADDR.UNPACK recovers, and a word that unpacks with OK is what packing
its fields gives. -/
def Obligations.PackAndUnpackAreInverse : Prop :=
  (∀ (s u : State) (cmd h m : Byte), cmd ∈ [3#8, 4#8, 6#8, 17#8, 18#8] → ∃ a : Word32,
      AnswersOnly (exec (.addrPack cmd h m) s) s { status := .ok, addr32 := some a } ∧
      AnswersOnly (exec (.addrUnpack a) u) u
        { status := .ok, cmd := some cmd, mid := some 0#8, hostId := some h,
          motorId := some m }) ∧
    ∀ (s u : State) (w : Word32) (cmd h m : Byte) (r : Response),
      AnswersOnly (exec (.addrUnpack w) s) s r → r.status = .ok → r.cmd = some cmd →
      r.hostId = some h → r.motorId = some m →
      AnswersOnly (exec (.addrPack cmd h m) u) u { status := .ok, addr32 := some w }

/-- R96: ADDR.SER gives the bytes, most significant first, of the word itself under PLAIN and of the
word rotated left by three under ROT3, for every word. -/
def Obligations.AddrSerSerialises : Prop :=
  ∀ (s : State) (a : Word32),
    (∃ b : Vector Byte 4,
        AnswersOnly (exec (.addrSer a .plain) s) s { status := .ok, bytes4 := some b } ∧
        (b[0] ++ b[1] ++ b[2] ++ b[3] : Word32) = a) ∧
      ∃ b : Vector Byte 4,
        AnswersOnly (exec (.addrSer a .rot3) s) s { status := .ok, bytes4 := some b } ∧
        (b[0] ++ b[1] ++ b[2] ++ b[3] : Word32) = a.rotateLeft 3

/-- R96, derived: under either strategy every four bytes are the serialisation of exactly one word,
which ROT3 gives back by a right rotation of the big-endian word. -/
def Obligations.AddressStrategiesAreBijective : Prop :=
  ∀ (s : State) (b : Vector Byte 4) (a : Word32),
    (AnswersOnly (exec (.addrSer a .plain) s) s { status := .ok, bytes4 := some b } ↔
        a = (b[0] ++ b[1] ++ b[2] ++ b[3] : Word32)) ∧
      (AnswersOnly (exec (.addrSer a .rot3) s) s { status := .ok, bytes4 := some b } ↔
        a = (b[0] ++ b[1] ++ b[2] ++ b[3] : Word32).rotateRight 3)

/-- R96, derived: on a word ADDR.PACK produces, ROT3 is a left shift by three and the low three bits
are zero. -/
def Obligations.RotationOfPackedAddressIsShift : Prop :=
  ∀ (s u : State) (cmd h m : Byte) (a : Word32) (b : Vector Byte 4),
    AnswersOnly (exec (.addrPack cmd h m) s) s { status := .ok, addr32 := some a } →
    AnswersOnly (exec (.addrSer a .rot3) u) u { status := .ok, bytes4 := some b } →
    (b[0] ++ b[1] ++ b[2] ++ b[3] : Word32) = a <<< 3 ∧ b[3].extractLsb' 0 3 = 0#3

/-! ### Payloads (42_payload.md) -/

/-- R101: with no parameter the payload is all zero, whatever the other operands hold. -/
def Obligations.PayBuildWithoutParameterIsZero : Prop :=
  ∀ (s : State) (index : Half) (ptype : BitVec 2) (value : F32),
    AnswersOnly (exec (.payBuild false index ptype value) s) s
      { status := .ok, p := some #v[0, 0, 0, 0, 0, 0, 0, 0] }

/-- R102: with a parameter of any of the three types the index is big-endian in bytes 0 and 1 and
bytes 2 and 3 are zero. -/
def Obligations.PayBuildWritesIndexBigEndian : Prop :=
  ∀ (s : State) (index : Half) (ptype : BitVec 2) (value : F32), ptype ≠ 3#2 →
    ∃ p : Payload,
      AnswersOnly (exec (.payBuild true index ptype value) s) s { status := .ok, p := some p } ∧
      (p[0] = index.extractLsb' 8 8 ∧ p[1] = index.extractLsb' 0 8) ∧ p[2] = 0#8 ∧ p[3] = 0#8

/-- R103: type Float32 copies the pattern, every pattern, lowest byte first. -/
def Obligations.PayBuildFloatCopiesPattern : Prop :=
  ∀ (s : State) (index : Half) (value : F32), ∃ p : Payload,
    AnswersOnly (exec (.payBuild true index 0#2 value) s) s { status := .ok, p := some p } ∧
    p[4] = value.extractLsb' 0 8 ∧ p[5] = value.extractLsb' 8 8 ∧
    p[6] = value.extractLsb' 16 8 ∧ p[7] = value.extractLsb' 24 8

/-- R104, R105: types Int16 and Int8 write the converted word in 2 and 1 bytes, lowest byte first,
and leave the rest zero. -/
def Obligations.PayBuildIntegersWriteConvertedWord : Prop :=
  ∀ (s : State) (index : Half) (value : F32),
    (∃ p : Payload,
        AnswersOnly (exec (.payBuild true index 1#2 value) s) s { status := .ok, p := some p } ∧
        p[4] = (cvt 16 value).extractLsb' 0 8 ∧ p[5] = (cvt 16 value).extractLsb' 8 8 ∧
        p[6] = 0#8 ∧ p[7] = 0#8) ∧
      ∃ p : Payload,
        AnswersOnly (exec (.payBuild true index 2#2 value) s) s { status := .ok, p := some p } ∧
        p[4] = cvt 8 value ∧ p[5] = 0#8 ∧ p[6] = 0#8 ∧ p[7] = 0#8

/-- R106, with the field layout of an f32 that the spec takes from general knowledge (R7, log entry
14): `cvt` of a finite value whose integer part is below 2^31 in magnitude is that integer part,
rounded toward zero, modulo 2^N; of any other value it is the low bits of the free function
`cvt_oob`. The magnitude is written out over the rationals. -/
def Obligations.ConversionTruncatesAndReduces : Prop :=
  ∀ (n : Nat) (v : F32),
    let e := (v.extractLsb' 23 8).toNat
    let f := (v.extractLsb' 0 23).toNat
    let magnitude : Rat := if e = 0 then f / 2 ^ 149 else (2 ^ 23 + f) * 2 ^ e / 2 ^ 150
    let t : Int := if v.getLsbD 31 then -⌊magnitude⌋ else ⌊magnitude⌋
    (e ≠ 255 ∧ |t| < 2 ^ 31 → ((cvt n v).toNat : Int) = t % 2 ^ n) ∧
      (¬(e ≠ 255 ∧ |t| < 2 ^ 31) → cvt n v = (Config.cvtOob v).setWidth n)

/-- R54, R100, R125: the reserved type code is answered ILLEGAL_OPERAND by PAY.BUILD with a
parameter and by FRAME.WRITE. -/
def Obligations.ReservedTypeIsIllegal : Prop :=
  ∀ (s : State) (h m : Byte) (index : Half) (value : F32),
    AnswersOnly (exec (.payBuild true index 3#2 value) s) s
        { status := .illegalOperand, info := some 3 } ∧
      AnswersOnly (exec (.frameWrite h m index 3#2 value) s) s
        { status := .illegalOperand, info := some 3 }

/-- R110: PAY.RESET is the fixed payload. -/
def Obligations.PayResetIsFixed : Prop :=
  ∀ s : State, AnswersOnly (exec .payReset s) s
    { status := .ok, p := some #v[1, 0, 0, 0, 0, 0, 0, 0] }

/-- R107 law 1: a float that PAY.BUILD encodes, DEC.F32 gives back bit for bit. -/
def Obligations.FloatRoundTripIsExact : Prop :=
  ∀ (s u : State) (index : Half) (value : F32), ∃ p : Payload,
    AnswersOnly (exec (.payBuild true index 0#2 value) s) s { status := .ok, p := some p } ∧
    AnswersOnly (exec (.decF32 p.toList) u) u { status := .ok, fval := some value }

/-- R107 laws 2 and 3: the interpreter, over any ROM that gives the index the type it was encoded
with, reports the index and the converted integer, zero-extended. -/
def Obligations.IntegerRoundTripIsConverted : Prop :=
  ∀ (s u : State) (index : Half) (value : F32),
    ((⟨index, .int16⟩ ∈ u.rom ∧ ∀ row ∈ u.rom, row.index = index → row.type = .int16) →
      ∃ p : Payload,
        AnswersOnly (exec (.payBuild true index 1#2 value) s) s { status := .ok, p := some p } ∧
        AnswersOnly (exec (.decResp p.toList) u) u
          { status := .ok, parameterIndex := some index,
            rawValue := some ((cvt 16 value).setWidth 32), reservedBytes := some #v[0, 0],
            tag := some .int16, ival := some (cvt 16 value) }) ∧
      ((⟨index, .int8⟩ ∈ u.rom ∧ ∀ row ∈ u.rom, row.index = index → row.type = .int8) →
        ∃ p : Payload,
          AnswersOnly (exec (.payBuild true index 2#2 value) s) s
            { status := .ok, p := some p } ∧
          AnswersOnly (exec (.decResp p.toList) u) u
            { status := .ok, parameterIndex := some index,
              rawValue := some ((cvt 8 value).setWidth 32), reservedBytes := some #v[0, 0],
              tag := some .int8, ival := some ((cvt 8 value).setWidth 16) })

/-- R36: a payload of one type read with another gives its bytes as they lie, for each of the six
pairs: an integer payload read as a float is the pattern of its zero-extended bytes; a Float32
payload read as Int16 or Int8 is the low two bytes or the low byte of the pattern; an Int8 payload
read as Int16 is its byte zero-extended, and an Int16 payload read as Int8 its low byte. -/
def Obligations.MixedWidthsReadBytesAsTheyLie : Prop :=
  ∀ (s u : State) (index : Half) (value : F32),
    let typed : ParamType → Prop := fun t =>
      ⟨index, t⟩ ∈ u.rom ∧ ∀ row ∈ u.rom, row.index = index → row.type = t
    ∃ float int16 int8 : Payload,
      (AnswersOnly (exec (.payBuild true index 0#2 value) s) s
          { status := .ok, p := some float } ∧
        AnswersOnly (exec (.payBuild true index 1#2 value) s) s
          { status := .ok, p := some int16 } ∧
        AnswersOnly (exec (.payBuild true index 2#2 value) s) s
          { status := .ok, p := some int8 }) ∧
      (AnswersOnly (exec (.decF32 int16.toList) u) u
          { status := .ok, fval := some ((cvt 16 value).setWidth 32) } ∧
        AnswersOnly (exec (.decF32 int8.toList) u) u
          { status := .ok, fval := some ((cvt 8 value).setWidth 32) }) ∧
      (typed .float32 → ∃ r r' : Response,
        AnswersOnly (exec (.decResp int16.toList) u) u r ∧
        r.fval = some ((cvt 16 value).setWidth 32) ∧
        AnswersOnly (exec (.decResp int8.toList) u) u r' ∧
        r'.fval = some ((cvt 8 value).setWidth 32)) ∧
      (typed .int16 → ∃ r r' : Response,
        AnswersOnly (exec (.decResp float.toList) u) u r ∧
        r.ival = some (value.extractLsb' 0 16) ∧
        AnswersOnly (exec (.decResp int8.toList) u) u r' ∧
        r'.ival = some ((cvt 8 value).setWidth 16)) ∧
      (typed .int8 → ∃ r r' : Response,
        AnswersOnly (exec (.decResp float.toList) u) u r ∧
        r.ival = some ((value.extractLsb' 0 8).setWidth 16) ∧
        AnswersOnly (exec (.decResp int16.toList) u) u r' ∧
        r'.ival = some (((cvt 16 value).extractLsb' 0 8).setWidth 16))

/-! ### Command frames and the envelope (43_frames.md) -/

/-- R121, R122, R123: FRAME.ENABLE, FRAME.DISABLE and FRAME.RESET give the address with codes 3, 4
and 6 and the fixed payload, for every pair of operands. -/
def Obligations.FixedPayloadFramesAreBuilt : Prop :=
  ∀ (s : State) (h m : Byte),
    AnswersOnly (exec (.frameEnable h m) s) s
        { status := .ok, addr32 := some (3#8 ++ 0#8 ++ h ++ m : Word32),
          p := some #v[0, 0, 0, 0, 0, 0, 0, 0] } ∧
      AnswersOnly (exec (.frameDisable h m) s) s
        { status := .ok, addr32 := some (4#8 ++ 0#8 ++ h ++ m : Word32),
          p := some #v[0, 0, 0, 0, 0, 0, 0, 0] } ∧
      AnswersOnly (exec (.frameReset h m) s) s
        { status := .ok, addr32 := some (6#8 ++ 0#8 ++ h ++ m : Word32),
          p := some #v[1, 0, 0, 0, 0, 0, 0, 0] }

/-- R124: FRAME.READ carries the index and zeros, which is PAY.BUILD of +0.0 for every type. -/
def Obligations.FrameReadCarriesIndexOnly : Prop :=
  ∀ (s : State) (h m : Byte) (index : Half), ∃ p : Payload,
    AnswersOnly (exec (.frameRead h m index) s) s
      { status := .ok, addr32 := some (17#8 ++ 0#8 ++ h ++ m : Word32), p := some p } ∧
    p = #v[index.extractLsb' 8 8, index.extractLsb' 0 8, 0, 0, 0, 0, 0, 0] ∧
    ∀ t : BitVec 2, t ≠ 3#2 →
      AnswersOnly (exec (.payBuild true index t 0#32) s) s { status := .ok, p := some p }

/-- R125: FRAME.WRITE carries the payload PAY.BUILD gives for the same parameter and value; the
reserved type is an illegal operand. -/
def Obligations.FrameWriteCarriesBuiltPayload : Prop :=
  ∀ (s u : State) (h m : Byte) (index : Half) (t : BitVec 2) (value : F32),
    (t ≠ 3#2 → ∃ p : Payload,
        AnswersOnly (exec (.payBuild true index t value) u) u { status := .ok, p := some p } ∧
        AnswersOnly (exec (.frameWrite h m index t value) s) s
          { status := .ok, addr32 := some (18#8 ++ 0#8 ++ h ++ m : Word32), p := some p }) ∧
      (t = 3#2 → AnswersOnly (exec (.frameWrite h m index t value) s) s
        { status := .illegalOperand, info := some 3 })

/-- R56, R120: the frame each FRAME operation builds is read by the decoder of wire words as that
command frame, well formed, with the same address fields. -/
def Obligations.BuiltFramesAreCommandFrames : Prop :=
  ∀ (rxMax : Nat) (s : State) (h m : Byte) (index : Half) (t : BitVec 2) (value : F32)
    (r : Response) (a : Word32) (p : Payload), r.addr32 = some a → r.p = some p →
    (AnswersOnly (exec (.frameEnable h m) s) s r →
        decode rxMax (.frame a p) = .ok (.wireEnable h m p) ∧
          (Instr.wireEnable h m p).wellFormed rxMax) ∧
      (AnswersOnly (exec (.frameDisable h m) s) s r →
        decode rxMax (.frame a p) = .ok (.wireDisable h m p) ∧
          (Instr.wireDisable h m p).wellFormed rxMax) ∧
      (AnswersOnly (exec (.frameReset h m) s) s r →
        decode rxMax (.frame a p) = .ok (.wireReset h m p) ∧
          (Instr.wireReset h m p).wellFormed rxMax) ∧
      (AnswersOnly (exec (.frameRead h m index) s) s r →
        decode rxMax (.frame a p) = .ok (.wireRead h m p) ∧
          (Instr.wireRead h m p).wellFormed rxMax) ∧
      (AnswersOnly (exec (.frameWrite h m index t value) s) s r →
        decode rxMax (.frame a p) = .ok (.wireWrite h m p) ∧
          (Instr.wireWrite h m p).wellFormed rxMax)

/-- R132 with the map of R32: SER.WRAP puts header, address under the strategy, length byte, payload
and tail at their offsets of 17 bytes, for every operand. -/
def Obligations.SerWrapLaysOutEnvelope : Prop :=
  ∀ (s : State) (a : Word32) (strat : Strategy) (p : Payload), ∃ tx : Vector Byte 17,
    AnswersOnly (exec (.serWrap a strat p) s) s { status := .ok, tx := some tx } ∧
    (tx[0] = 0x41#8 ∧ tx[1] = 0x54#8) ∧
    (tx[2] ++ tx[3] ++ tx[4] ++ tx[5] : Word32)
      = (match strat with
        | .plain => a
        | .rot3 => a.rotateLeft 3) ∧
    tx[6] = 0x08#8 ∧
    (∀ (k : Nat) (hk : k < 8), tx[7 + k] = p[k]) ∧
    tx[15] = 0x0D#8 ∧ tx[16] = 0x0A#8

/-- R133: what SER.WRAP wraps, DEC.RESP.SER reads at the same offsets, for every legal
SERIAL_MIN_LEN: the index, zero reserved bytes, and the value bytes as one little-endian word. -/
def Obligations.WrappedFramesParse : Prop :=
  ∀ (s u : State) (a : Word32) (strat : Strategy) (index : Half) (t : BitVec 2) (value : F32),
    u.params.Legal → t ≠ 3#2 →
    ∃ (p : Payload) (tx : Vector Byte 17) (r : Response),
      AnswersOnly (exec (.payBuild true index t value) s) s { status := .ok, p := some p } ∧
      AnswersOnly (exec (.serWrap a strat p) s) s { status := .ok, tx := some tx } ∧
      AnswersOnly (exec (.decRespSer tx.toList) u) u r ∧
      r.parameterIndex = some index ∧ r.reservedBytes = some #v[0, 0] ∧
      r.rawValue = some (p[7] ++ p[6] ++ p[5] ++ p[4] : Word32) ∧
      (r.status = .ok ∨ r.status = .unknownParameter)

/-! ### Decoding of replies (44_decode.md) -/

/-- R141: DEC.F32 gives bytes 4 to 7 as one little-endian pattern whatever the other bytes are, and
TOO_SHORT under eight bytes. -/
def Obligations.DecFloatReadsValueBytes : Prop :=
  ∀ s : State,
    (∀ rx : List Byte, rx.length < 8 →
        AnswersOnly (exec (.decF32 rx) s) s
          { status := .tooShort, info := some rx.length }) ∧
      ∀ (b0 b1 b2 b3 b4 b5 b6 b7 : Byte) (rest : List Byte),
        AnswersOnly (exec (.decF32 (b0 :: b1 :: b2 :: b3 :: b4 :: b5 :: b6 :: b7 :: rest)) s) s
          { status := .ok, fval := some (b7 ++ b6 ++ b5 ++ b4 : Word32) }

/-- R144, R145, R150: DEC.RESP of at least eight bytes whose index has one type in the ROM reports
the three fields and the value typed by the table, integers zero-extended. -/
def Obligations.DecRespTypesKnownParameter : Prop :=
  ∀ (s : State) (i0 i1 r0 r1 v0 v1 v2 v3 : Byte) (rest : List Byte) (t : ParamType),
    (⟨(i0 ++ i1 : Half), t⟩ ∈ s.rom ∧
        ∀ row ∈ s.rom, row.index = (i0 ++ i1 : Half) → row.type = t) →
      AnswersOnly (exec (.decResp (i0 :: i1 :: r0 :: r1 :: v0 :: v1 :: v2 :: v3 :: rest)) s) s
        (match t with
        | .float32 =>
          { status := .ok, parameterIndex := some (i0 ++ i1 : Half),
            rawValue := some (v3 ++ v2 ++ v1 ++ v0 : Word32), reservedBytes := some #v[r0, r1],
            tag := some .float32, fval := some (v3 ++ v2 ++ v1 ++ v0 : Word32) }
        | .int16 =>
          { status := .ok, parameterIndex := some (i0 ++ i1 : Half),
            rawValue := some (v3 ++ v2 ++ v1 ++ v0 : Word32), reservedBytes := some #v[r0, r1],
            tag := some .int16, ival := some (v1 ++ v0 : Half) }
        | .int8 =>
          { status := .ok, parameterIndex := some (i0 ++ i1 : Half),
            rawValue := some (v3 ++ v2 ++ v1 ++ v0 : Word32), reservedBytes := some #v[r0, r1],
            tag := some .int8, ival := some (0#8 ++ v0 : Half) })

/-- R146, R149: DEC.RESP.SER of at least SERIAL_MIN_LEN bytes answers what DEC.RESP answers to the
window at offset 7, whatever bytes stand before it and behind it. -/
def Obligations.DecRespSerReadsWindowAtSeven : Prop :=
  ∀ (s : State) (pre window rest : List Byte), pre.length = 7 → window.length = 8 →
    s.params.serialMinLen ≤ (pre ++ window ++ rest).length →
    ∃ r, AnswersOnly (exec (.decRespSer (pre ++ window ++ rest)) s) s r ∧
      AnswersOnly (exec (.decResp window) s) s r

/-- R148, R152: a buffer shorter than the operation's minimum is INCOMPLETE_FRAME with no field,
whatever its bytes are and whatever the ROM holds. -/
def Obligations.ShortFramesAreIncomplete : Prop :=
  ∀ (s : State) (rx : List Byte),
    (rx.length < 8 →
        AnswersOnly (exec (.decResp rx) s) s
          { status := .incompleteFrame, info := some rx.length }) ∧
      (rx.length < s.params.serialMinLen →
        AnswersOnly (exec (.decRespSer rx) s) s
          { status := .incompleteFrame, info := some rx.length })

/-- R147: an index that no ROM row has is UNKNOWN_PARAMETER, with the three fields of the frame and
no typed value. -/
def Obligations.UnknownIndexKeepsRawFields : Prop :=
  ∀ (s : State) (pre : List Byte) (i0 i1 r0 r1 v0 v1 v2 v3 : Byte) (rest : List Byte),
    (∀ row ∈ s.rom, row.index ≠ (i0 ++ i1 : Half)) →
    (AnswersOnly (exec (.decResp (i0 :: i1 :: r0 :: r1 :: v0 :: v1 :: v2 :: v3 :: rest)) s) s
        { status := .unknownParameter, info := some (i0 ++ i1 : Half).toNat,
          parameterIndex := some (i0 ++ i1 : Half),
          rawValue := some (v3 ++ v2 ++ v1 ++ v0 : Word32),
          reservedBytes := some #v[r0, r1] }) ∧
      (pre.length = 7 →
        s.params.serialMinLen ≤
          (pre ++ i0 :: i1 :: r0 :: r1 :: v0 :: v1 :: v2 :: v3 :: rest).length →
        AnswersOnly
          (exec (.decRespSer (pre ++ i0 :: i1 :: r0 :: r1 :: v0 :: v1 :: v2 :: v3 :: rest)) s) s
          { status := .unknownParameter, info := some (i0 ++ i1 : Half).toNat,
            parameterIndex := some (i0 ++ i1 : Half),
            rawValue := some (v3 ++ v2 ++ v1 ++ v0 : Word32),
            reservedBytes := some #v[r0, r1] })

/-! ### Statuses (60_exceptions.md) -/

/-- R204: the eight operations that can never fail have status OK for every operand. -/
def Obligations.EightOperationsNeverFail : Prop :=
  ∀ (s : State) (h m : Byte) (index : Half) (a : Word32) (strat : Strategy) (p : Payload),
    ∀ i ∈ [Instr.ptByindex index, .addrSer a strat, .payReset, .frameEnable h m,
        .frameDisable h m, .frameReset h m, .frameRead h m index, .serWrap a strat p],
      ∃ r, AnswersOnly (exec i s) s r ∧ r.status = .ok

/-- R203: from a state whose response has only the fields its status leaves valid, every step leads
to such a state. -/
def Obligations.StepKeepsResponseFit : Prop :=
  ∀ s t : State, s.ResponseFits → step s = .next t → t.ResponseFits

/-! ### The machine -/

/-- R8, R40: every codec operation completes, changes nothing but the response port, and its
response depends on its operands, the ROM and the parameters alone. -/
def Obligations.CodecOperationsArePure : Prop :=
  ∀ (rxMax : Nat) (s u : State) (bits : List Bool) (i : Instr),
    decode rxMax (.op bits) = .ok i →
    s.rom = u.rom → s.params.serialMinLen = u.params.serialMinLen →
    ∃ r, AnswersOnly (exec i s) s r ∧ AnswersOnly (exec i u) u r

/-- R40 with the port coding of R52 and R53: when the outstanding request decodes, the step is that
instruction on the state with the request taken. -/
def Obligations.StepRunsDecodedInstruction : Prop :=
  ∀ (s : State) (r : Request) (q : List Request) (i : Instr),
    s.requests = r :: q → decode s.params.rxMax r = .ok i → i.wellFormed s.params.rxMax →
    step s = exec i (s.withRequests q)

/-- With no request outstanding a step changes nothing (log entry 4), and what is neither a request
nor a command frame is refused by name (log entry 3). -/
def Obligations.StepIdlesOrRefuses : Prop :=
  ∀ s : State,
    (s.requests = [] → step s = .next s) ∧
      ∀ (r : Request) (q : List Request) (e : DecodeError), s.requests = r :: q →
        decode s.params.rxMax r = .error e → step s = .refused (.notDecoded e)

/-- R40: a step that goes on takes exactly the outstanding request. -/
def Obligations.StepTakesOneRequest : Prop :=
  ∀ s t : State, step s = .next t → t.requests = s.requests.tail

/-- R15, R13: no step writes the ROM or a parameter. Among the parameters stands the host's binding,
which the model holds by its own choice (log entry 12); no step writes it either. -/
def Obligations.StepKeepsRomAndParameters : Prop :=
  ∀ s t : State, step s = .next t → t.rom = s.rom ∧ t.params = s.params

/-- The invariant of the machine is kept by every step. -/
def Obligations.StepKeepsInvariant : Prop :=
  ∀ s t : State, s.Inv → step s = .next t → t.Inv

/-- Every frame handed to the transport is one of the five command frames, in the form of its
binding (R50, R56, R120, R132): every step keeps this. -/
def Obligations.StepKeepsHandedFramesLegal : Prop :=
  ∀ s t : State, s.HandedLegal → step s = .next t → t.HandedLegal

/-- The three invariants hold at reset. -/
def Obligations.ResetMeetsInvariants : Prop :=
  State.reset.Inv ∧ State.reset.ResponseFits ∧ State.reset.HandedLegal

/-- A state that meets the invariant never faults (R211: no error is fatal). -/
def Obligations.InvariantStatesNeverFault : Prop :=
  ∀ (s : State) (f : Fault), s.Inv → step s ≠ .fault f

/-- R20, R230: reset leaves the ten rows in the ROM, no request outstanding, no response valid, the
session Idle with host 253 (log entry 25); a reset of the block in any state leaves the block so and
the host as it was (log entry 11); and a session is made with the address its caller gives, host 253
unless given (R231). -/
def Obligations.ResetLeavesBlockReady : Prop :=
  (State.reset.rom = [⟨0x0570, .int8⟩, ⟨0x1870, .float32⟩, ⟨0x0A70, .float32⟩,
        ⟨0x1770, .float32⟩, ⟨0x1670, .float32⟩, ⟨0x1970, .float32⟩, ⟨0x1B70, .float32⟩,
        ⟨0x2270, .float32⟩, ⟨0x2470, .float32⟩, ⟨0x2570, .float32⟩] ∧
      State.reset.requests = [] ∧ State.reset.response = none ∧
      State.reset.session.phase = .idle ∧ State.reset.session.address.hostId = 253#8) ∧
    ∀ s : State,
      ((s.blockReset.rom = State.reset.rom ∧ s.blockReset.requests = [] ∧
          s.blockReset.response = none) ∧
        s.blockReset.session = s.session ∧ s.blockReset.transport = s.transport ∧
        s.blockReset.params = s.params) ∧
      ∀ h m : Byte,
        ((s.makeSession none m).session.address = ⟨253#8, m⟩ ∧
          (s.makeSession (some h) m).session.address = ⟨h, m⟩) ∧
        (s.makeSession (some h) m).session.phase = .idle

/-! ### Encoding (30_encoding.md) -/

/-- Every well-formed instruction is what its own words decode to, with every operand, whatever
`RX_MAX` is. -/
def Obligations.DecodeOfEncode : Prop :=
  ∀ (rxMax : Nat) (i : Instr), i.wellFormed rxMax → decode rxMax (encode rxMax i) = .ok i

/-- Each port item has at most one meaning and no bit of it is dropped: what it decodes to encodes
to it again. -/
def Obligations.EncodeOfDecode : Prop :=
  ∀ (rxMax : Nat) (r : Request) (i : Instr), decode rxMax r = .ok i → encode rxMax i = r

/-- What a request's bits decode to is well formed: an `rx` has at most `RX_MAX` bytes (R17). That a
longer one is no request is the model's reading (log entries 2 and 3). -/
def Obligations.DecodedRequestsAreWellFormed : Prop :=
  ∀ (rxMax : Nat) (bits : List Bool) (i : Instr),
    decode rxMax (.op bits) = .ok i → i.wellFormed rxMax

/-- R52, R56: a few words written out, with the instructions they stand for. The bit order of a
request is log entry 1, the width of its length field (five bits where `RX_MAX` is 17, sixteen where
it is 65535) log entry 2, the refusals log entry 3. -/
def Obligations.TableWordsDecode : Prop :=
  decode 17 (.op [false, false, false, false, false, true, false, true]) = .ok (.ptByname 5) ∧
    decode 17 (.op [false, true, true, false]) = .ok .payReset ∧
    decode 17 (.op [true, true, false, true, false, false, false, false, false])
      = .ok (.decF32 []) ∧
    decode 65535 (.op [true, true, false, true, false, false, false, false, false, false, false,
      false, false, false, false, false, false, false, false, false]) = .ok (.decF32 []) ∧
    decode 17 (.frame 0x0300FD01#32 #v[0, 0, 0, 0, 0, 0, 0, 0])
      = .ok (.wireEnable 253 1 #v[0, 0, 0, 0, 0, 0, 0, 0]) ∧
    decode 17 (.frame 0x1100FD7F#32 #v[0x19, 0x70, 0, 0, 0, 0, 0, 0])
      = .ok (.wireRead 253 127 #v[0x19, 0x70, 0, 0, 0, 0, 0, 0]) ∧
    decode 17 (.frame 0x1201FD01#32 #v[0, 0, 0, 0, 0, 0, 0, 0]) = .error .middleFieldNotZero ∧
    decode 17 (.frame 0x0500FD01#32 #v[0, 0, 0, 0, 0, 0, 0, 0]) = .error .unknownCommand

/-! ### The host's exchanges (45_host_sequences.md)

A command frame's meaning in this model is the exchange the host makes with it (log entry 9); what
the transport answers is `s.transport.nextAnswer`, a script or a free value (log entry 8). A frame
for another address than the session's is this session's exchange too (log entry 29). -/

/-- ENABLE, DISABLE, RESET and WRITE, in a state whose session is Idle, complete: the frame is
handed over in the form of the binding, the oldest frame received by then is drained (log entry 23;
what a failure leaves in the queue is log entry 26), `last_value` and the block stay as they are, a
failure of `send` or `try_receive` is surfaced and a timeout is not (R126, R170 to R175). That this
is so for every address, not the session's alone, is log entry 29. -/
def Obligations.DrainedFramesComplete : Prop :=
  ∀ (s : State) (h m : Byte) (p : Payload), s.session.phase = .idle →
    ∀ c ∈ [(Instr.wireEnable h m p, 3#8), (.wireDisable h m p, 4#8), (.wireReset h m p, 6#8),
        (.wireWrite h m p, 18#8)],
      let a := s.transport.nextAnswer
      let early := s.transport.rxQueue ++ a.early
      ∃ t, exec c.1 s = .next t ∧ OnlyHostChanged s t ∧
        (∃ f, t.transport.handed = s.transport.handed ++ [f] ∧
          (s.params.binding = .native → f = .native (c.2 ++ 0#8 ++ h ++ m : Word32) p) ∧
          (s.params.binding = .serial → ∃ tx, f = .serial tx ∧
            AnswersOnly (exec (.serWrap (c.2 ++ 0#8 ++ h ++ m : Word32)
              s.params.serialAddrStrategy p) s) s { status := .ok, tx := some tx })) ∧
        t.transport.rxQueue
          = (if a.sendOk = false then early
            else if a.receiveOk = false then early ++ a.inWindow
            else (early ++ a.inWindow).tail) ∧
        t.session.lastValue = s.session.lastValue ∧ t.session.phase = .idle ∧
        t.session.lastCall
          = some (if a.sendOk = true ∧ a.receiveOk = true then .done else .transportError)

/-- READ, in a state whose session is Idle, completes: on the native binding the frames queued
before are discarded, the frame is handed over, and the oldest frame received by then (log entry
23), if there is one and both transport calls succeed, is taken for the reply. What DEC.RESP or
DEC.RESP.SER answers to that frame decides: its raw value, if it has one, becomes `last_value` and
is returned, with UNKNOWN_PARAMETER passed on; else, and on a timeout, the old `last_value` is
returned (log entry 16). A failure of the transport is surfaced (R126, R170, R176, R177; what it
leaves in the queue is log entry 26). That this is so for every address, not the session's alone, is
log entry 29. -/
def Obligations.ReadFrameCompletes : Prop :=
  ∀ (s : State) (h m : Byte) (p : Payload), s.session.phase = .idle →
    let a := s.transport.nextAnswer
    let early :=
      match s.params.binding with
      | .native => []
      | .serial => s.transport.rxQueue ++ a.early
    let decoding : List Byte → Instr :=
      match s.params.binding with
      | .native => .decResp
      | .serial => .decRespSer
    ∃ t, exec (.wireRead h m p) s = .next t ∧ OnlyHostChanged s t ∧ t.session.phase = .idle ∧
      (∃ f, t.transport.handed = s.transport.handed ++ [f] ∧
        (s.params.binding = .native → f = .native (17#8 ++ 0#8 ++ h ++ m : Word32) p) ∧
        (s.params.binding = .serial → ∃ tx, f = .serial tx ∧
          AnswersOnly (exec (.serWrap (17#8 ++ 0#8 ++ h ++ m : Word32)
            s.params.serialAddrStrategy p) s) s { status := .ok, tx := some tx })) ∧
      t.transport.rxQueue
        = (if a.sendOk = false then early
          else if a.receiveOk = false then early ++ a.inWindow
          else (early ++ a.inWindow).tail) ∧
      (¬(a.sendOk = true ∧ a.receiveOk = true) →
        t.session.lastCall = some .transportError ∧
          t.session.lastValue = s.session.lastValue) ∧
      (a.sendOk = true ∧ a.receiveOk = true →
        (early ++ a.inWindow = [] →
          t.session.lastCall = some (.value s.session.lastValue none) ∧
            t.session.lastValue = s.session.lastValue) ∧
        ∀ (f : List Byte) (q : List (List Byte)) (r : Response),
          early ++ a.inWindow = f :: q → AnswersOnly (exec (decoding f) s) s r →
          (r.rawValue = none →
            t.session.lastCall = some (.value s.session.lastValue none) ∧
              t.session.lastValue = s.session.lastValue) ∧
          ∀ w : Word32, r.rawValue = some w →
            t.session.lastCall
                = some (.value w (if r.status = .unknownParameter then some .unknownParameter
                  else none)) ∧
              t.session.lastValue = w)

/-- R176 with R151: `read_parameter` takes the float view of the oldest frame received (log entry
23: frames are taken oldest first), stores it in `last_value` and returns it, whichever parameter
the frame is about; UNKNOWN_PARAMETER is passed on and the value is taken all the same (log entry
16). On the native binding that frame came in after the read began, on the serial binding it may
have been queued before. -/
def Obligations.ReadParameterTakesFloatView : Prop :=
  ∀ (s : State) (spec : ParamSpec) (i0 i1 r0 r1 v0 v1 v2 v3 : Byte) (rest : List Byte)
    (q : List (List Byte)), s.session.phase = .idle →
    s.transport.nextAnswer.sendOk = true → s.transport.nextAnswer.receiveOk = true →
    (match s.params.binding with
      | .native =>
        s.transport.nextAnswer.inWindow
          = (i0 :: i1 :: r0 :: r1 :: v0 :: v1 :: v2 :: v3 :: rest) :: q
      | .serial => ∃ pre : List Byte, pre.length = 7 ∧
        s.params.serialMinLen
          ≤ (pre ++ i0 :: i1 :: r0 :: r1 :: v0 :: v1 :: v2 :: v3 :: rest).length ∧
        s.transport.rxQueue ++ s.transport.nextAnswer.early ++ s.transport.nextAnswer.inWindow
          = (pre ++ i0 :: i1 :: r0 :: r1 :: v0 :: v1 :: v2 :: v3 :: rest) :: q) →
    ∃ t, hostReadParameter spec s = .next t ∧
      t.session.lastValue = (v3 ++ v2 ++ v1 ++ v0 : Word32) ∧
      t.session.lastCall = some (.value (v3 ++ v2 ++ v1 ++ v0 : Word32)
        (if ∃ row ∈ s.rom, row.index = (i0 ++ i1 : Half) then none
          else some .unknownParameter)) ∧
      t.transport.rxQueue = q

/-- R177, R176: `read_parameter` returns the previous `last_value` unchanged when nothing is
received, and when the frame received, the oldest one whatever stands behind it (log entry 23), is
too short for the interpreter (log entry 16). -/
def Obligations.ReadParameterReturnsStaleValue : Prop :=
  ∀ (s : State) (spec : ParamSpec), s.session.phase = .idle →
    s.transport.nextAnswer.sendOk = true → s.transport.nextAnswer.receiveOk = true →
    (match s.params.binding with
      | .native => s.transport.nextAnswer.inWindow = [] ∨
        ∃ f q, s.transport.nextAnswer.inWindow = f :: q ∧ f.length < 8
      | .serial =>
        s.transport.rxQueue ++ s.transport.nextAnswer.early ++ s.transport.nextAnswer.inWindow
          = [] ∨
        ∃ f q, s.transport.rxQueue ++ s.transport.nextAnswer.early
          ++ s.transport.nextAnswer.inWindow = f :: q ∧ f.length < s.params.serialMinLen) →
    ∃ t, hostReadParameter spec s = .next t ∧ t.session.lastValue = s.session.lastValue ∧
      t.session.lastCall = some (.value s.session.lastValue none)

/-- R174: `enable`, `disable` and `reset_position` hand over the frame that FRAME.ENABLE,
FRAME.DISABLE and FRAME.RESET build for the session's address, in the form of the binding; a
transport failure is surfaced, a missing reply is not; `last_value` is not touched. -/
def Obligations.SingleFrameCallsHandBuiltFrames : Prop :=
  ∀ s u : State, s.session.phase = .idle →
    let h := s.session.address.hostId
    let m := s.session.address.motorId
    ∀ c ∈ [(hostEnable, Instr.frameEnable h m), (hostDisable, .frameDisable h m),
        (hostResetPosition, .frameReset h m)],
      ∃ (a : Word32) (p : Payload) (t : State),
        AnswersOnly (exec c.2 u) u { status := .ok, addr32 := some a, p := some p } ∧
        c.1 s = .next t ∧
        t.transport.handed = s.transport.handed ++ [s.handedForm a p] ∧
        t.session.lastValue = s.session.lastValue ∧
        t.session.lastCall
          = some (if s.transport.nextAnswer.sendOk = true ∧
                s.transport.nextAnswer.receiveOk = true
              then .done else .transportError)

/-- R175: `write_parameter` hands over the frame FRAME.WRITE builds for the session's address, does
not touch `last_value`, and returns normally whatever the reply is, if the transport does not
fail. -/
def Obligations.WriteParameterHandsBuiltFrame : Prop :=
  ∀ (s u : State) (index : Half) (t : ParamType) (value : F32), s.session.phase = .idle →
    ∃ (a : Word32) (p : Payload) (v : State),
      AnswersOnly (exec (.frameWrite s.session.address.hostId s.session.address.motorId index
        (paramTypeCode t) value) u) u { status := .ok, addr32 := some a, p := some p } ∧
      hostWriteParameter ⟨index, t⟩ value s = .next v ∧
      v.transport.handed = s.transport.handed ++ [s.handedForm a p] ∧
      v.session.lastValue = s.session.lastValue ∧
      v.session.lastCall
        = some (if s.transport.nextAnswer.sendOk = true ∧ s.transport.nextAnswer.receiveOk = true
            then .done else .transportError)

/-- R236 (log entry 17): a command frame begun while the session is not Idle is the fault
exchangeInFlight. -/
def Obligations.FrameInsideExchangeFaults : Prop :=
  ∀ (s : State) (h m : Byte) (p : Payload), s.session.phase ≠ .idle →
    ∀ i ∈ [Instr.wireEnable h m p, .wireDisable h m p, .wireReset h m p, .wireRead h m p,
        .wireWrite h m p], exec i s = .fault .exchangeInFlight

/-- R181: `set_velocity` hands over its five frames in their fixed order, whatever the replies are,
as long as the transport itself does not fail in its next five exchanges, scripted or not (log
entry 8), and leaves `last_value` alone. -/
def Obligations.SetVelocityHandsFiveFrames : Prop :=
  ∀ (s : State) (target maxAcc maxCurrent : F32), s.session.phase = .idle →
    (∀ a ∈ s.transport.upcoming 5, a.sendOk = true ∧ a.receiveOk = true) →
    let h := s.session.address.hostId
    let m := s.session.address.motorId
    let write : Word32 := 18#8 ++ 0#8 ++ h ++ m
    let float : Byte → F32 → Payload := fun b v =>
      #v[b, 0x70, 0, 0, v.extractLsb' 0 8, v.extractLsb' 8 8, v.extractLsb' 16 8,
        v.extractLsb' 24 8]
    ∃ t, hostSetVelocity target maxAcc maxCurrent s = .next t ∧
      t.transport.handed = s.transport.handed ++
        [s.handedForm write #v[0x05, 0x70, 0, 0, 2, 0, 0, 0],
          s.handedForm (3#8 ++ 0#8 ++ h ++ m : Word32) #v[0, 0, 0, 0, 0, 0, 0, 0],
          s.handedForm write (float 0x18 maxCurrent), s.handedForm write (float 0x22 maxAcc),
          s.handedForm write (float 0x0A target)] ∧
      t.session.lastValue = s.session.lastValue ∧ t.session.lastCall = some .done ∧
      t.session.phase = .idle

/-- R180: `set_position` hands over its seven frames in their fixed order, the target folded against
the value the first read returned (`FoldRunsBothSteps` says what the fold is), as long as both are
finite and the transport does not fail in its next seven exchanges, scripted or not (log entry 8).
Where one of the two is a NaN or an infinity, it is refused once the read is done
(93_implementation_defined.md U9). That an UNKNOWN_PARAMETER of the read is ignored is log
entry 27. -/
def Obligations.SetPositionHandsSevenFrames : Prop :=
  ∀ (s : State) (target speed maxAcc : F32), s.session.phase = .idle →
    s.transport.nextAnswer.sendOk = true → s.transport.nextAnswer.receiveOk = true →
    let h := s.session.address.hostId
    let m := s.session.address.motorId
    let write : Word32 := 18#8 ++ 0#8 ++ h ++ m
    let float : Byte → F32 → Payload := fun b v =>
      #v[b, 0x70, 0, 0, v.extractLsb' 0 8, v.extractLsb' 8 8, v.extractLsb' 16 8,
        v.extractLsb' 24 8]
    ∃ u, hostReadParameter Config.mechPos s = .next u ∧
      (f32Value u.session.lastValue = none ∨ f32Value target = none →
        hostSetPosition target speed maxAcc s = .refused .foldNotFinite) ∧
      (f32Value u.session.lastValue ≠ none → f32Value target ≠ none →
        (∀ a ∈ s.transport.upcoming 7, a.sendOk = true ∧ a.receiveOk = true) →
        ∃ (folded : F32) (t : State),
          foldTarget s.params.foldArith u.session.lastValue target = some folded ∧
          hostSetPosition target speed maxAcc s = .next t ∧
          t.transport.handed = s.transport.handed ++
            [s.handedForm (17#8 ++ 0#8 ++ h ++ m : Word32) #v[0x19, 0x70, 0, 0, 0, 0, 0, 0],
              s.handedForm write #v[0x05, 0x70, 0, 0, 1, 0, 0, 0],
              s.handedForm (3#8 ++ 0#8 ++ h ++ m : Word32) #v[0, 0, 0, 0, 0, 0, 0, 0],
              s.handedForm write (float 0x17 speed), s.handedForm write (float 0x24 speed),
              s.handedForm write (float 0x25 maxAcc), s.handedForm write (float 0x16 folded)] ∧
          t.session.lastValue = u.session.lastValue ∧ t.session.lastCall = some .done ∧
          t.session.phase = .idle)

/-- R173, R180, R181, with log entry 18: where an exchange of a motion sequence surfaces
TransportError, the sequence ends there: the frames up to and including that one have been handed
over, no further one is, no further answer is used, the failure is what the call returns, and
`last_value` is what the read left in it. The answers are the transport's next ones, scripted or not
(log entry 8). -/
def Obligations.SequencesEndOnTransportFailure : Prop :=
  ∀ (s : State) (before : List Answer) (bad : Answer), s.session.phase = .idle →
    s.transport.upcoming (before.length + 1) = before ++ [bad] →
    (∀ a ∈ before, a.sendOk = true ∧ a.receiveOk = true) →
    ¬(bad.sendOk = true ∧ bad.receiveOk = true) →
    let h := s.session.address.hostId
    let m := s.session.address.motorId
    let write : Word32 := 18#8 ++ 0#8 ++ h ++ m
    let enable := s.handedForm (3#8 ++ 0#8 ++ h ++ m : Word32) #v[0, 0, 0, 0, 0, 0, 0, 0]
    let mode : Byte → Handed := fun b => s.handedForm write #v[0x05, 0x70, 0, 0, b, 0, 0, 0]
    let float : Byte → F32 → Handed := fun b v =>
      s.handedForm write #v[b, 0x70, 0, 0, v.extractLsb' 0 8, v.extractLsb' 8 8,
        v.extractLsb' 16 8, v.extractLsb' 24 8]
    let read := s.handedForm (17#8 ++ 0#8 ++ h ++ m : Word32) #v[0x19, 0x70, 0, 0, 0, 0, 0, 0]
    let endsAfter : Host.Outcome State Fault Refusal → List Handed → F32 → Prop :=
      fun o frames lastValue => ∃ t, o = .next t ∧
        t.transport.handed = s.transport.handed ++ frames ∧
        t.transport.answers = s.transport.answers.drop (before.length + 1) ∧
        t.transport.exchanges = s.transport.exchanges + (before.length + 1) ∧
        t.session.lastValue = lastValue ∧ t.session.lastCall = some .transportError ∧
        t.session.phase = .idle
    (∀ target maxAcc maxCurrent : F32, before.length < 5 →
        endsAfter (hostSetVelocity target maxAcc maxCurrent s)
          ([mode 2, enable, float 0x18 maxCurrent, float 0x22 maxAcc, float 0x0A target].take
            (before.length + 1))
          s.session.lastValue) ∧
      (∀ target speed maxAcc : F32, before = [] →
        endsAfter (hostSetPosition target speed maxAcc s) [read] s.session.lastValue) ∧
      ∀ target speed maxAcc : F32, 0 < before.length → before.length < 7 →
        ∃ u, hostReadParameter Config.mechPos s = .next u ∧
          (f32Value u.session.lastValue ≠ none → f32Value target ≠ none →
            ∃ folded : F32,
              foldTarget s.params.foldArith u.session.lastValue target = some folded ∧
              endsAfter (hostSetPosition target speed maxAcc s)
                ([read, mode 1, enable, float 0x17 speed, float 0x24 speed, float 0x25 maxAcc,
                  float 0x16 folded].take (before.length + 1))
                u.session.lastValue)

/-! ### The fold of `set_position` (45_host_sequences.md R180, 91_not_in_source.md N18)

The formats of the intermediate results and their rounding are IEEE-754's, presumed (log entry
13). -/

/-- A result is rounded to a nearest number of its format, and every number of moderate size is
rounded (log entry 13). -/
def Obligations.FoldRoundsToNearest : Prop :=
  ∀ (arith : FoldArith) (q : Rat),
    (∀ v : Rat, (foldFormat arith).round q = some v →
      (foldFormat arith).Has v ∧ ∀ w : Rat, (foldFormat arith).Has w → |v - q| ≤ |w - q|) ∧
    (|q| < 2 ^ 127 → ∃ v : Rat, (foldFormat arith).round q = some v)

/-- R180, steps 1 and 2 written out: the folded target is what the eight intermediate results give,
each the rounding of the exact one, `π` being 0x40490FDB or 0x400921FB54442D18 by `FOLD_ARITH`, and
`n` the nearest integer to the turns, a tie going either way as the free `Config.foldTieUp` says.
There is no folded target exactly where one of the two is a NaN or an infinity: where an
intermediate result is beyond the finite numbers there is one, with a free value (log entry 13). -/
def Obligations.FoldRunsBothSteps : Prop :=
  ∀ (arith : FoldArith) (current target : F32),
    (foldTarget arith current target = none ↔
      f32Value current = none ∨ f32Value target = none) ∧
    ∀ (c t delta stepped back turns move folded v : Rat) (n : Int),
      let pi : Rat :=
        match arith with
        | .single => 13176795 / 2 ^ 22
        | .double => 7074237752028440 / 2 ^ 51
      let rounds : Rat → Rat → Prop := fun x y => (foldFormat arith).round x = some y
      f32Value current = some c → f32Value target = some t →
      rounds (t - c) delta →
      (pi < delta → rounds (t - 2 * pi) stepped) →
      (delta < -pi → rounds (t + 2 * pi) stepped) →
      (¬pi < delta → ¬delta < -pi → stepped = t) →
      rounds (c - stepped) back → rounds (back / (2 * pi)) turns →
      (|turns - n| < 1 / 2 ∨
        |turns - n| = 1 / 2 ∧ n = if Config.foldTieUp ⌊turns⌋ then ⌊turns⌋ + 1 else ⌊turns⌋) →
      rounds (n * (2 * pi)) move → rounds (stepped + move) folded →
      FloatFormat.single.round folded = some v →
      ∃ f : F32, foldTarget arith current target = some f ∧ f32Value f = some v

/-- R180 and D27, the shortest-path law, for positions and targets of magnitude at most 1024 and
with epsilon 1/1000, in either intermediate precision (log entry 13): the folded target is at most
`π + ε` from the current position, and a multiple of `2π` from the target up to rounding. -/
def Obligations.FoldKeepsShortestPathLaw : Prop :=
  ∀ (arith : FoldArith) (current target : F32) (c t : Rat),
    f32Value current = some c → f32Value target = some t → |c| ≤ 1024 → |t| ≤ 1024 →
    ∃ (f : F32) (v : Rat) (k : Int), foldTarget arith current target = some f ∧
      f32Value f = some v ∧ |(v : ℝ) - c| ≤ Real.pi + 1 / 1000 ∧
      |(v : ℝ) - (t + k * (2 * Real.pi))| ≤ 1 / 1000
end

