-- ==== Sys2Proof/Laws/Bits.lean ====
section
/-! SUPPORT. What taking a field off a bit string does to a string that an encoder wrote. -/

namespace Sys2Proof

@[simp] theorem natBits_length (n v : Nat) : (natBits n v).length = n := by
  induction n with
  | zero => rfl
  | succ n ih => simp [natBits, ih]

@[simp] theorem wordBits_length {n : Nat} (w : BitVec n) : (wordBits w).length = n :=
  natBits_length n w.toNat

/-- Reading back the low `n` bits of `v` behind `acc`. -/
theorem bitsNat_natBits (n v acc : Nat) :
    bitsNat acc (natBits n v) = acc * 2 ^ n + v % 2 ^ n := by
  induction n generalizing acc with
  | zero => simp [natBits, bitsNat, Nat.mod_one]
  | succ n ih =>
    rw [natBits, bitsNat, ih]
    have h : v % 2 ^ (n + 1) = (v.testBit n).toNat * 2 ^ n + v % 2 ^ n := by
      rw [Nat.mod_pow_succ, Nat.toNat_testBit, Nat.mul_comm, Nat.add_comm]
    rw [h]
    ring

/-- A field an encoder wrote is read back, and the rest is left. -/
theorem takeField_natBits (n v : Nat) (rest : List Bool) :
    takeField n (natBits n v ++ rest) = some (BitVec.ofNat n v, rest) := by
  have h : ¬(natBits n v ++ rest).length < n := by simp
  have hb : bitsNat 0 (natBits n v) = v % 2 ^ n := by simp [bitsNat_natBits]
  rw [takeField, if_neg h, List.take_left' (natBits_length n v),
    List.drop_left' (natBits_length n v), hb]
  congr 2
  exact BitVec.eq_of_toNat_eq (by simp)

/-- A word an encoder wrote is read back, and the rest is left. -/
@[simp] theorem takeField_wordBits {n : Nat} (w : BitVec n) (rest : List Bool) :
    takeField n (wordBits w ++ rest) = some (w, rest) := by
  simp [wordBits, takeField_natBits]

/-- The same with nothing behind the word. -/
@[simp] theorem takeField_wordBits_end {n : Nat} (w : BitVec n) :
    takeField n (wordBits w) = some (w, []) := by
  simpa using takeField_wordBits w []

/-- Bytes an encoder wrote are read back, and the rest is left. -/
theorem takeBytes_flatMap (bs : List Byte) (rest : List Bool) :
    takeBytes bs.length (bs.flatMap wordBits ++ rest) = some (bs, rest) := by
  induction bs with
  | nil => rfl
  | cons b bs ih => simp [takeBytes, List.flatMap_cons, List.append_assoc, ih]

/-- A received byte sequence an encoder wrote is read back, and the rest is left. -/
theorem takeRx_rxBits {rxMax : Nat} (rx : List Byte) (h : rx.length ≤ rxMax)
    (rest : List Bool) : takeRx rxMax (rxBits rxMax rx ++ rest) = some (rx, rest) := by
  have hlt : rx.length < 2 ^ rxLenBits rxMax := lt_of_le_of_lt h Nat.lt_log2_self
  have hl : (BitVec.ofNat (rxLenBits rxMax) rx.length).toNat = rx.length := by
    simp [Nat.mod_eq_of_lt hlt]
  simp [takeRx, rxBits, List.append_assoc, takeField_natBits, hl, takeBytes_flatMap]

/-- A bit string behind `acc` is `acc` shifted by its length, plus the string's own number. -/
theorem bitsNat_eq (acc : Nat) (bs : List Bool) :
    bitsNat acc bs = acc * 2 ^ bs.length + bitsNat 0 bs := by
  induction bs generalizing acc with
  | nil => simp [bitsNat]
  | cons b bs ih =>
    rw [bitsNat, bitsNat, ih, ih (2 * 0 + b.toNat), List.length_cons, Nat.pow_succ]
    ring

/-- The number of a bit string fits its length. -/
theorem bitsNat_lt (bs : List Bool) : bitsNat 0 bs < 2 ^ bs.length := by
  induction bs with
  | nil => simp [bitsNat]
  | cons b bs ih =>
    rw [bitsNat, bitsNat_eq, List.length_cons, Nat.pow_succ]
    cases b <;> simp <;> omega

/-- Writing the number of a bit string out again gives the string. -/
theorem natBits_bitsNat (acc : Nat) (bs : List Bool) :
    natBits bs.length (bitsNat acc bs) = bs := by
  induction bs generalizing acc with
  | nil => rfl
  | cons b bs ih =>
    have hb : (bitsNat acc (b :: bs)).testBit bs.length = b := by
      rw [bitsNat, bitsNat_eq, Nat.mul_comm, Nat.testBit_two_pow_mul_add _ (bitsNat_lt bs)]
      cases b <;> simp
    rw [List.length_cons, natBits, hb, bitsNat, ih]

/-- A bit string that a field can be taken off begins with that field's bits. -/
theorem takeField_eq_some {n : Nat} {bits : List Bool} {w : BitVec n} {rest : List Bool}
    (h : takeField n bits = some (w, rest)) : bits = wordBits w ++ rest := by
  unfold takeField at h
  split at h
  · cases h
  · rename_i hlen
    obtain ⟨rfl, rfl⟩ := by simpa using h
    have hl : (bits.take n).length = n := by simp; omega
    have hw : wordBits (BitVec.ofNat n (bitsNat 0 (bits.take n))) = bits.take n := by
      have hlt := bitsNat_lt (bits.take n)
      rw [hl] at hlt
      rw [wordBits, BitVec.toNat_ofNat, Nat.mod_eq_of_lt hlt]
      conv_lhs => rw [← hl]
      simpa [hl] using natBits_bitsNat 0 (bits.take n)
    rw [hw, List.take_append_drop]

/-- A bit string that bytes can be taken off begins with those bytes' bits. -/
theorem takeBytes_eq_some {n : Nat} {bits : List Bool} {bs : List Byte} {rest : List Bool}
    (h : takeBytes n bits = some (bs, rest)) :
    bits = bs.flatMap wordBits ++ rest ∧ bs.length = n := by
  induction n generalizing bits bs with
  | zero =>
    obtain ⟨rfl, rfl⟩ := by simpa [takeBytes] using h
    simp
  | succ n ih =>
    unfold takeBytes at h
    split at h
    · cases h
    · rename_i b r hb
      split at h
      · cases h
      · rename_i bs' r' hbs
        obtain ⟨rfl, rfl⟩ := by simpa using h
        obtain ⟨hr, hl⟩ := ih hbs
        exact ⟨by simp [takeField_eq_some hb, hr, List.append_assoc], by simp [hl]⟩

/-- A bit string that a received byte sequence can be taken off begins with its length and its
bytes. -/
theorem takeRx_eq_some {rxMax : Nat} {bits : List Bool} {rx : List Byte} {rest : List Bool}
    (h : takeRx rxMax bits = some (rx, rest)) : bits = rxBits rxMax rx ++ rest := by
  unfold takeRx at h
  split at h
  · cases h
  · rename_i n r hn
    obtain ⟨hr, hl⟩ := takeBytes_eq_some h
    rw [takeField_eq_some hn, hr, rxBits, hl, wordBits, List.append_assoc]

@[simp] theorem Strategy.ofBit_bit (s : Strategy) : Strategy.ofBit s.bit = s := by
  cases s <;> rfl

@[simp] theorem Strategy.bit_ofBit (b : BitVec 1) : (Strategy.ofBit b).bit = b := by
  revert b
  decide

end Sys2Proof
end

