-- ==== Sys2Proof/Laws/State.lean ====
section
/-! SUPPORT. One lemma per field per update of the state. -/

namespace Sys2Proof.Machine

variable (s : State) (r : Option Response) (q : List Request) (m : Session) (t : Transport)
  (f : Phase)

@[simp] theorem State.withResponse_rom : (s.withResponse r).rom = s.rom := rfl
@[simp] theorem State.withResponse_params : (s.withResponse r).params = s.params := rfl
@[simp] theorem State.withResponse_requests : (s.withResponse r).requests = s.requests := rfl
@[simp] theorem State.withResponse_response : (s.withResponse r).response = r := rfl
@[simp] theorem State.withResponse_session : (s.withResponse r).session = s.session := rfl
@[simp] theorem State.withResponse_transport : (s.withResponse r).transport = s.transport := rfl

@[simp] theorem State.withRequests_rom : (s.withRequests q).rom = s.rom := rfl
@[simp] theorem State.withRequests_params : (s.withRequests q).params = s.params := rfl
@[simp] theorem State.withRequests_requests : (s.withRequests q).requests = q := rfl
@[simp] theorem State.withRequests_response : (s.withRequests q).response = s.response := rfl
@[simp] theorem State.withRequests_session : (s.withRequests q).session = s.session := rfl
@[simp] theorem State.withRequests_transport : (s.withRequests q).transport = s.transport := rfl

@[simp] theorem State.withSession_rom : (s.withSession m).rom = s.rom := rfl
@[simp] theorem State.withSession_params : (s.withSession m).params = s.params := rfl
@[simp] theorem State.withSession_requests : (s.withSession m).requests = s.requests := rfl
@[simp] theorem State.withSession_response : (s.withSession m).response = s.response := rfl
@[simp] theorem State.withSession_session : (s.withSession m).session = m := rfl
@[simp] theorem State.withSession_transport : (s.withSession m).transport = s.transport := rfl

@[simp] theorem State.withTransport_rom : (s.withTransport t).rom = s.rom := rfl
@[simp] theorem State.withTransport_params : (s.withTransport t).params = s.params := rfl
@[simp] theorem State.withTransport_requests : (s.withTransport t).requests = s.requests := rfl
@[simp] theorem State.withTransport_response : (s.withTransport t).response = s.response := rfl
@[simp] theorem State.withTransport_session : (s.withTransport t).session = s.session := rfl
@[simp] theorem State.withTransport_transport : (s.withTransport t).transport = t := rfl

@[simp] theorem State.inPhase_rom : (s.inPhase f).rom = s.rom := rfl
@[simp] theorem State.inPhase_params : (s.inPhase f).params = s.params := rfl
@[simp] theorem State.inPhase_requests : (s.inPhase f).requests = s.requests := rfl
@[simp] theorem State.inPhase_response : (s.inPhase f).response = s.response := rfl
@[simp] theorem State.inPhase_transport : (s.inPhase f).transport = s.transport := rfl
@[simp] theorem State.inPhase_phase : (s.inPhase f).session.phase = f := rfl
@[simp] theorem State.inPhase_address : (s.inPhase f).session.address = s.session.address := rfl
@[simp] theorem State.inPhase_lastValue :
    (s.inPhase f).session.lastValue = s.session.lastValue := rfl
@[simp] theorem State.inPhase_lastCall : (s.inPhase f).session.lastCall = s.session.lastCall := rfl

/-- Taking the outstanding request leaves the rest of the queue and everything else. -/
theorem State.fetch_cons {r : Request} {q : List Request} (h : s.requests = r :: q) :
    s.fetch = some (r, s.withRequests q) := by
  simp [State.fetch, h]

/-- Nothing is fetched exactly when nothing is outstanding. -/
theorem State.fetch_eq_none_iff : s.fetch = none ↔ s.requests = [] := by
  unfold State.fetch
  split <;> simp_all

/-- What a fetch gives. -/
theorem State.fetch_eq_some {r : Request} {s' : State} (h : s.fetch = some (r, s')) :
    ∃ q, s.requests = r :: q ∧ s' = s.withRequests q := by
  unfold State.fetch at h
  split at h
  · cases h
  · rename_i r' q heq
    cases h
    exact ⟨q, heq, rfl⟩

/-- The one thing an operation does when it ends: a next state with the response at the port. -/
theorem respond_eq (r : Response) (s : State) : respond r s = .next (s.withResponse (some r)) := rfl

end Sys2Proof.Machine
end

