-- ==== Sys2Proof/Laws/Words.lean ====
section
/-! SUPPORT. What the word operations of Machine/Ops.lean and Machine/Operands.lean are, as bits and
as numbers. -/

namespace Sys2Proof

/-- Concatenation of words as a number. -/
theorem toNat_append_add {m n : Nat} (a : BitVec m) (b : BitVec n) :
    (a ++ b).toNat = a.toNat * 2 ^ n + b.toNat := by
  rw [BitVec.toNat_append, Nat.shiftLeft_eq, Nat.mul_comm, ← Nat.two_pow_add_eq_or_of_lt b.isLt]

/-- A field of a word as a number. -/
theorem toNat_field {n : Nat} (w : BitVec n) (lo len : Nat) :
    (w.extractLsb' lo len).toNat = w.toNat / 2 ^ lo % 2 ^ len := by
  simp [BitVec.extractLsb'_toNat, Nat.shiftRight_eq_div_pow]

namespace Machine

/-- A byte of a word as a number. -/
theorem byteOf_toNat {n : Nat} (w : BitVec n) (k : Nat) :
    (byteOf w k).toNat = w.toNat / 2 ^ (8 * k) % 256 := toNat_field w (8 * k) 8

/-- `build_address` is the concatenation of its fields (30_encoding.md R50). -/
theorem packAddress_eq (cmd hostId motorId : Byte) :
    packAddress cmd hostId motorId = (cmd ++ 0#8 ++ hostId ++ motorId : Word32) := by
  have hc := cmd.isLt
  have hh := hostId.isLt
  have hm := motorId.isLt
  apply BitVec.eq_of_toNat_eq
  have e1 : (cmd.toNat <<< 24) % 2 ^ 32 = 2 ^ 24 * cmd.toNat := by
    rw [Nat.shiftLeft_eq, Nat.mul_comm]
    exact Nat.mod_eq_of_lt (by omega)
  have e2 : (hostId.toNat <<< 8) % 2 ^ 32 = 2 ^ 8 * hostId.toNat := by
    rw [Nat.shiftLeft_eq, Nat.mul_comm]
    exact Nat.mod_eq_of_lt (by omega)
  have m1 : cmd.toNat % 2 ^ 32 = cmd.toNat := Nat.mod_eq_of_lt (by omega)
  have m2 : hostId.toNat % 2 ^ 32 = hostId.toNat := Nat.mod_eq_of_lt (by omega)
  have m3 : motorId.toNat % 2 ^ 32 = motorId.toNat := Nat.mod_eq_of_lt (by omega)
  have z : (0#32 <<< 16 : Word32) = 0#32 := rfl
  rw [packAddress, z, BitVec.or_zero]
  simp only [toNat_append_add, BitVec.toNat_or, BitVec.toNat_shiftLeft, BitVec.toNat_setWidth,
    BitVec.toNat_ofNat, m1, m2, m3, e1, e2]
  rw [← Nat.two_pow_add_eq_or_of_lt (by omega), show 2 ^ 24 * cmd.toNat + 2 ^ 8 * hostId.toNat
    = 2 ^ 8 * (2 ^ 16 * cmd.toNat + hostId.toNat) by ring, ← Nat.two_pow_add_eq_or_of_lt hm]
  omega

/-- The packed address as a number (46_laws.md R190). -/
theorem packAddress_toNat (cmd hostId motorId : Byte) :
    (packAddress cmd hostId motorId).toNat
      = cmd.toNat * 2 ^ 24 + hostId.toNat * 2 ^ 8 + motorId.toNat := by
  rw [packAddress_eq]
  simp only [toNat_append_add, BitVec.toNat_ofNat]
  omega

/-- The rotation of ROT3 is a rotation (41_address.md R96). -/
theorem rotl3_eq (w : Word32) : rotl3 w = w.rotateLeft 3 := by
  rw [rotl3, BitVec.rotateLeft_def]

/-- The four bytes of `to_be(w, 4)`, put together again. -/
theorem toBe4_append (w : Word32) :
    ((toBe4 w)[0] ++ (toBe4 w)[1] ++ (toBe4 w)[2] ++ (toBe4 w)[3] : Word32) = w := by
  have hw := w.isLt
  apply BitVec.eq_of_toNat_eq
  simp only [toBe4, toNat_append_add, Vector.getElem_mk, List.getElem_toArray,
    List.getElem_cons_zero, List.getElem_cons_succ, byteOf_toNat]
  omega

/-- The four bytes of a word, the lowest last, put together again. -/
theorem byteOf_append (w : Word32) :
    (byteOf w 3 ++ byteOf w 2 ++ byteOf w 1 ++ byteOf w 0 : Word32) = w := toBe4_append w

/-- The two bytes of a half word put together again. -/
theorem byteOf_append_half (w : Half) : (byteOf w 1 ++ byteOf w 0 : Half) = w := by
  have hw := w.isLt
  apply BitVec.eq_of_toNat_eq
  simp only [toNat_append_add, byteOf_toNat]
  omega

end Machine

end Sys2Proof
end

