-- ==== Sys2Proof/Laws/Codec.lean ====
section
/-! SUPPORT. What the shared operations of the codec do, said once: ending an operation, the operand
checks, the ROM reads, the extraction window and the interpreter. -/

namespace Sys2Proof.Machine

/-! ### Ending an operation -/

/-- An operation that ends with a response changes the response port only. -/
theorem answersOnly_respond (r : Response) (s : State) : AnswersOnly (respond r s) s r :=
  ⟨_, rfl, rfl, rfl, rfl, rfl, rfl, rfl⟩

/-- An operation has one response. -/
theorem AnswersOnly.unique {o : Host.Outcome State Fault Refusal} {s : State} {r r' : Response}
    (h : AnswersOnly o s r) (h' : AnswersOnly o s r') : r = r' := by
  obtain ⟨t, rfl, ht, -⟩ := h
  obtain ⟨t', he, ht', -⟩ := h'
  cases he
  simpa [ht] using ht'

/-- What `respond` answers is the response it was given. -/
theorem answersOnly_respond_iff {r r' : Response} {s : State} :
    AnswersOnly (respond r s) s r' ↔ r = r' :=
  ⟨fun h => (answersOnly_respond r s).unique h, fun h => h ▸ answersOnly_respond r s⟩

/-! ### Operand checks -/

/-- The five command codes (30_encoding.md R56). -/
theorem isCommand_iff (c : Byte) : isCommand c = true ↔ c ∈ [3#8, 4#8, 6#8, 17#8, 18#8] := by
  simp [isCommand, Config.commandCodes, Config.enableCode, Config.disableCode, Config.resetCode,
    Config.readCode, Config.writeCode]

/-- The reserved type code, and only it, is no type (30_encoding.md R54). -/
theorem paramTypeOf_eq_none_iff (t : BitVec 2) : paramTypeOf t = none ↔ t = 3#2 := by
  revert t
  decide

@[simp] theorem paramTypeOf_code (t : ParamType) : paramTypeOf (paramTypeCode t) = some t := by
  cases t <;> rfl

/-! ### The ROM -/

/-- A lookup misses exactly when no row has the index. -/
theorem romFind_eq_none_iff (i : Half) (r : Nat) (rom : List ParamSpec) :
    romFind i r rom = none ↔ ∀ row ∈ rom, row.index ≠ i := by
  induction rom generalizing r with
  | nil => simp [romFind]
  | cons row rows ih =>
    rw [romFind]
    split <;> simp_all

/-- A lookup that hits names a row with the index, and its type. -/
theorem romFind_eq_some {i : Half} {k r : Nat} {rom : List ParamSpec} {t : ParamType}
    (h : romFind i k rom = some (r, t)) : k ≤ r ∧ rom[r - k]? = some ⟨i, t⟩ := by
  induction rom generalizing k with
  | nil => simp [romFind] at h
  | cons row rows ih =>
    rw [romFind] at h
    split at h
    · rename_i hi
      obtain ⟨rfl, rfl⟩ := by simpa using h
      subst hi
      simp
    · obtain ⟨hk, hr⟩ := ih h
      refine ⟨by omega, ?_⟩
      rw [show r - k = (r - (k + 1)) + 1 by omega]
      simpa using hr

/-- What a lookup reads, where the index has one type in the ROM. -/
theorem romLookup_of_mem {rom : List ParamSpec} {i : Half} {t : ParamType} (hm : ⟨i, t⟩ ∈ rom)
    (hu : ∀ row ∈ rom, row.index = i → row.type = t) : ∃ r, romLookup rom i = some (r, t) := by
  rcases h : romLookup rom i with _ | ⟨r, t'⟩
  · exact absurd rfl ((romFind_eq_none_iff i 0 rom).1 h _ hm)
  · have hr := (romFind_eq_some h).2
    have : t' = t := hu _ (List.mem_of_getElem? hr) rfl
    exact ⟨r, by rw [this]⟩

/-! ### The window and the interpreter -/

/-- A window inside `rx` is read byte by byte (44_decode.md R140). -/
theorem extract_window (pre : List Byte) (i0 i1 r0 r1 v0 v1 v2 v3 : Byte) (rest : List Byte) :
    extract (pre ++ i0 :: i1 :: r0 :: r1 :: v0 :: v1 :: v2 :: v3 :: rest) pre.length
      = some ⟨(i0 ++ i1 : Half), (v3 ++ v2 ++ v1 ++ v0 : Word32), #v[r0, r1]⟩ := by
  simp [extract, be16, le32]

/-- A list of at least eight bytes has its first eight. -/
theorem exists_window {l : List Byte} (h : 8 ≤ l.length) :
    ∃ i0 i1 r0 r1 v0 v1 v2 v3 rest, l = i0 :: i1 :: r0 :: r1 :: v0 :: v1 :: v2 :: v3 :: rest := by
  match l, h with
  | i0 :: i1 :: r0 :: r1 :: v0 :: v1 :: v2 :: v3 :: rest, _ =>
    exact ⟨i0, i1, r0, r1, v0, v1, v2, v3, rest, rfl⟩

/-- The interpreter on a window inside a long enough `rx` (44_decode.md R144). -/
theorem interpret_window (rom : List ParamSpec) (pre : List Byte)
    (i0 i1 r0 r1 v0 v1 v2 v3 : Byte) (rest : List Byte) (minLen : Nat)
    (h : minLen ≤ (pre ++ i0 :: i1 :: r0 :: r1 :: v0 :: v1 :: v2 :: v3 :: rest).length) :
    interpret rom (pre ++ i0 :: i1 :: r0 :: r1 :: v0 :: v1 :: v2 :: v3 :: rest) pre.length minLen
      = interpretFrame rom
          ⟨(i0 ++ i1 : Half), (v3 ++ v2 ++ v1 ++ v0 : Word32), #v[r0, r1]⟩ := by
  rw [interpret, if_neg (by omega), extract_window]

/-- A frame whose index no row has (44_decode.md R147). -/
theorem interpretFrame_unknown {rom : List ParamSpec} {f : ResponseFrame}
    (h : ∀ row ∈ rom, row.index ≠ f.parameterIndex) :
    interpretFrame rom f
      = frameResponse .unknownParameter (some f.parameterIndex.toNat) f := by
  rw [interpretFrame, romLookup, (romFind_eq_none_iff _ 0 rom).2 h]

/-- A frame whose index has one type in the ROM (44_decode.md R150). -/
theorem interpretFrame_known {rom : List ParamSpec} {f : ResponseFrame} {t : ParamType}
    (hm : ⟨f.parameterIndex, t⟩ ∈ rom)
    (hu : ∀ row ∈ rom, row.index = f.parameterIndex → row.type = t) :
    interpretFrame rom f = typedValue t f.rawValue (frameResponse .ok none f) := by
  obtain ⟨r, hr⟩ := romLookup_of_mem hm hu
  rw [interpretFrame, hr]

/-- The two answers to a frame. -/
theorem interpretFrame_cases (rom : List ParamSpec) (f : ResponseFrame) :
    (∃ n, interpretFrame rom f = frameResponse .unknownParameter (some n) f) ∨
      ∃ t, interpretFrame rom f = typedValue t f.rawValue (frameResponse .ok none f) := by
  unfold interpretFrame
  split
  · exact .inl ⟨_, rfl⟩
  · exact .inr ⟨_, rfl⟩

/-- The interpreter on a short `rx` (44_decode.md R148). -/
theorem interpret_short (rom : List ParamSpec) (rx : List Byte) (b minLen : Nat)
    (h : rx.length < minLen) : interpret rom rx b minLen = raise .incompleteFrame rx.length := by
  rw [interpret, if_pos h]

/-- What the interpreter can answer at all. -/
theorem interpret_cases (rom : List ParamSpec) (rx : List Byte) (b minLen : Nat) :
    interpret rom rx b minLen = raise .incompleteFrame rx.length ∨
      ∃ f, interpret rom rx b minLen = interpretFrame rom f := by
  unfold interpret
  split
  · exact .inl rfl
  · split
    · exact .inl rfl
    · exact .inr ⟨_, rfl⟩

end Sys2Proof.Machine
end

