-- ==== Sys2Proof/Laws/Fold.lean ====
section
/-! SUPPORT. The arithmetic of the fold, said once: rounding to a format is to one of its numbers,
how far that is off, and the f32 of a number of the single format stands for that number. -/

namespace Sys2Proof.Machine

theorem pow2_eq (e : Int) : pow2 e = (2 : Rat) ^ e := by
  cases e with
  | ofNat n => simp [pow2]
  | negSucc n =>
    rw [pow2, Rat.mkRat_eq_div, zpow_negSucc]
    push_cast
    rw [one_div]

theorem pow2_pos (e : Int) : 0 < pow2 e := by
  rw [pow2_eq]
  positivity

/-- `ilog2` of a positive number is the exponent of the power of two below it. -/
theorem ilog2_spec {q : Rat} (hq : 0 < q) :
    (2 : Rat) ^ ilog2 q ≤ q ∧ q < (2 : Rat) ^ (ilog2 q + 1) := by
  have hn : 0 < q.num := Rat.num_pos.2 hq
  obtain ⟨n, hnn⟩ : ∃ n : Nat, q.num = n := ⟨q.num.toNat, by omega⟩
  have hn0 : n ≠ 0 := by omega
  have hd0 : q.den ≠ 0 := q.den_nz
  have hq' : q = (n : Rat) / q.den := by
    conv_lhs => rw [← Rat.num_div_den q, hnn]
    simp
  have hdpos : (0 : Rat) < q.den := by exact_mod_cast Nat.pos_of_ne_zero hd0
  have n1 : (2 : Rat) ^ (Nat.log2 n : Int) ≤ n := by
    rw [zpow_natCast]
    exact_mod_cast Nat.log2_self_le hn0
  have n2 : (n : Rat) < (2 : Rat) ^ ((Nat.log2 n : Int) + 1) := by
    rw [show ((Nat.log2 n : Int) + 1) = ((Nat.log2 n + 1 : Nat) : Int) by push_cast; rfl,
      zpow_natCast]
    exact_mod_cast Nat.lt_log2_self
  have d1 : (2 : Rat) ^ (Nat.log2 q.den : Int) ≤ q.den := by
    rw [zpow_natCast]
    exact_mod_cast Nat.log2_self_le hd0
  have d2 : (q.den : Rat) < (2 : Rat) ^ ((Nat.log2 q.den : Int) + 1) := by
    rw [show ((Nat.log2 q.den : Int) + 1) = ((Nat.log2 q.den + 1 : Nat) : Int) by push_cast; rfl,
      zpow_natCast]
    exact_mod_cast Nat.lt_log2_self
  have upper : q < (2 : Rat) ^ ((Nat.log2 n : Int) - Nat.log2 q.den + 1) := by
    rw [show ((Nat.log2 n : Int) - Nat.log2 q.den + 1)
      = ((Nat.log2 n : Int) + 1) - Nat.log2 q.den by ring, zpow_sub₀ (by norm_num)]
    conv_lhs => rw [hq']
    exact div_lt_div₀ n2 d1 (by positivity) (by positivity)
  have lower : (2 : Rat) ^ ((Nat.log2 n : Int) - Nat.log2 q.den - 1) ≤ q := by
    rw [show ((Nat.log2 n : Int) - Nat.log2 q.den - 1)
      = (Nat.log2 n : Int) - (Nat.log2 q.den + 1) by ring, zpow_sub₀ (by norm_num)]
    conv_rhs => rw [hq']
    exact div_le_div₀ (by positivity) n1 hdpos d2.le
  unfold ilog2
  rw [hnn, Int.toNat_natCast]
  simp only [pow2_eq]
  split
  · rename_i h
    exact ⟨h, upper⟩
  · rename_i h
    rw [sub_add_cancel]
    exact ⟨lower, not_le.1 h⟩

/-- The whole part is the floor. -/
theorem wholePart_eq (q : Rat) : wholePart q = ⌊q⌋ := by
  rw [wholePart, ← Rat.floor_def]
  rfl

/-- `roundEven` is within one half. -/
theorem roundEven_error (q : Rat) : |(roundEven q : Rat) - q| ≤ 1 / 2 := by
  have h1 : ((⌊q⌋ : Int) : Rat) ≤ q := Int.floor_le q
  have h2 : q < (⌊q⌋ : Int) + 1 := Int.lt_floor_add_one q
  simp only [roundEven, wholePart_eq]
  rw [abs_le]
  split_ifs <;> push_cast <;> constructor <;> linarith

/-- No integer is nearer than `roundEven`. -/
theorem roundEven_nearest (q : Rat) (m : Int) : |(roundEven q : Rat) - q| ≤ |(m : Rat) - q| := by
  by_cases h : m = roundEven q
  · rw [h]
  · have hd : (1 : Rat) ≤ |(m : Rat) - roundEven q| := by
      have : (1 : Int) ≤ |m - roundEven q| := Int.one_le_abs (sub_ne_zero.2 h)
      exact_mod_cast this
    have he := roundEven_error q
    have ht := abs_sub_le (m : Rat) q (roundEven q)
    rw [abs_sub_comm q] at ht
    linarith

/-- Rounding turns is within one half, whatever the tie rule is. -/
theorem roundTurns_error (q : Rat) : |(roundTurns q : Rat) - q| ≤ 1 / 2 := by
  have h1 : ((⌊q⌋ : Int) : Rat) ≤ q := Int.floor_le q
  have h2 : q < (⌊q⌋ : Int) + 1 := Int.lt_floor_add_one q
  simp only [roundTurns, wholePart_eq]
  rw [abs_le]
  split_ifs <;> push_cast <;> constructor <;> linarith

variable {fmt : FloatFormat} {q v : Rat}

/-- What a rounded result is. -/
theorem round_eq_some (h : fmt.round q = some v) (hq : q ≠ 0) :
    v = roundEven (q / pow2 (fmt.spacing q)) * pow2 (fmt.spacing q) ∧
      |v| < pow2 fmt.maxExponent := by
  unfold FloatFormat.round at h
  simp only [if_neg hq] at h
  split at h
  · cases h
    exact ⟨rfl, by assumption⟩
  · cases h

/-- A rounded result is within half a spacing. -/
theorem round_error_spacing (h : fmt.round q = some v) (hq : q ≠ 0) :
    |v - q| ≤ pow2 (fmt.spacing q) / 2 := by
  have hp := pow2_pos (fmt.spacing q)
  rw [(round_eq_some h hq).1]
  have he := roundEven_error (q / pow2 (fmt.spacing q))
  rw [show (roundEven (q / pow2 (fmt.spacing q)) : Rat) * pow2 (fmt.spacing q) - q
    = ((roundEven (q / pow2 (fmt.spacing q)) : Rat) - q / pow2 (fmt.spacing q))
      * pow2 (fmt.spacing q) by field_simp, abs_mul, abs_of_pos hp]
  nlinarith

/-- The error of a rounded result, relative and, among subnormals, absolute. -/
theorem round_error (h : fmt.round q = some v) :
    |v - q| ≤ |q| * (2 : Rat) ^ (-(fmt.precision : Int))
      + (2 : Rat) ^ (fmt.minExponent - 1) := by
  by_cases hq : q = 0
  · have hv : v = 0 := by simpa [FloatFormat.round, hq, eq_comm] using h
    subst hq hv
    simp
    positivity
  · have hs := round_error_spacing h hq
    have hl := (ilog2_spec (abs_pos.2 hq)).1
    have hp1 : (0 : Rat) < (2 : Rat) ^ (-(fmt.precision : Int)) := by positivity
    have hp2 : (0 : Rat) < (2 : Rat) ^ (fmt.minExponent - 1) := by positivity
    refine hs.trans ?_
    rw [pow2_eq, FloatFormat.spacing]
    rcases max_cases (ilog2 |q| - (fmt.precision - 1 : Int)) fmt.minExponent with ⟨e, -⟩ | ⟨e, -⟩
    · rw [e, show ilog2 |q| - (fmt.precision - 1 : Int) = ilog2 |q| + -(fmt.precision : Int) + 1 by
        ring, zpow_add₀ (by norm_num), zpow_add₀ (by norm_num)]
      simp only [zpow_one]
      nlinarith
    · rw [e, show fmt.minExponent = fmt.minExponent - 1 + 1 by ring, zpow_add₀ (by norm_num)]
      simp only [zpow_one, add_sub_cancel_right]
      have := abs_nonneg q
      nlinarith

/-- A number that is small against the format's largest is rounded. -/
theorem round_isSome (hq : |q| * 2 < (2 : Rat) ^ fmt.maxExponent) : ∃ v, fmt.round q = some v := by
  by_cases h0 : q = 0
  · exact ⟨0, by simp [FloatFormat.round, h0]⟩
  · unfold FloatFormat.round
    rw [if_neg h0, if_pos]
    · exact ⟨_, rfl⟩
    · rw [pow2_eq fmt.maxExponent]
      refine lt_of_le_of_lt ?_ hq
      have hp := pow2_pos (fmt.spacing q)
      have he := roundEven_nearest (q / pow2 (fmt.spacing q)) 0
      rw [Int.cast_zero, zero_sub, abs_neg] at he
      have ht : |(roundEven (q / pow2 (fmt.spacing q)) : Rat)|
          ≤ 2 * |q / pow2 (fmt.spacing q)| := by
        have := abs_sub_abs_le_abs_sub (roundEven (q / pow2 (fmt.spacing q)) : Rat)
          (q / pow2 (fmt.spacing q))
        linarith
      rw [abs_mul, abs_of_pos hp]
      rw [abs_div, abs_of_pos hp] at ht
      have : 2 * (|q| / pow2 (fmt.spacing q)) * pow2 (fmt.spacing q) = 2 * |q| := by field_simp
      nlinarith

/-- A rounded result is a number of the format. -/
theorem round_has (h : fmt.round q = some v) (hp : 0 < fmt.precision) : fmt.Has v := by
  by_cases hq : q = 0
  · have hv : v = 0 := by simpa [FloatFormat.round, hq, eq_comm] using h
    exact ⟨0, fmt.minExponent, by simp, le_rfl, by simp [hv]⟩
  · have hv := (round_eq_some h hq).1
    have hs : fmt.minExponent ≤ fmt.spacing q := le_max_right _ _
    have hl := (ilog2_spec (abs_pos.2 hq)).2
    have hL : ilog2 |q| + 1 ≤ (fmt.precision : Int) + fmt.spacing q := by
      have : ilog2 |q| - (fmt.precision - 1 : Int) ≤ fmt.spacing q := le_max_left _ _
      omega
    have hx : |q / pow2 (fmt.spacing q)| < ((2 ^ fmt.precision : Int) : Rat) := by
      rw [abs_div, abs_of_pos (pow2_pos _), div_lt_iff₀ (pow2_pos _), pow2_eq]
      refine lt_of_lt_of_le hl ?_
      push_cast
      rw [← zpow_natCast (2 : Rat), ← zpow_add₀ (by norm_num)]
      exact zpow_le_zpow_right₀ (by norm_num) hL
    have hm : |roundEven (q / pow2 (fmt.spacing q))| ≤ 2 ^ fmt.precision := by
      have he := roundEven_error (q / pow2 (fmt.spacing q))
      have ha := abs_sub_abs_le_abs_sub (roundEven (q / pow2 (fmt.spacing q)) : Rat)
        (q / pow2 (fmt.spacing q))
      have : ((|roundEven (q / pow2 (fmt.spacing q))| : Int) : Rat)
          < ((2 ^ fmt.precision + 1 : Int) : Rat) := by
        push_cast at hx ⊢
        linarith
      have := Int.cast_lt.1 this
      omega
    generalize roundEven (q / pow2 (fmt.spacing q)) = m at hv hm
    rw [pow2_eq] at hv
    by_cases hlt : |m| < 2 ^ fmt.precision
    · exact ⟨m, _, hlt, hs, hv⟩
    · have hpow : (2 : Int) ^ fmt.precision = 2 * 2 ^ (fmt.precision - 1) := by
        rw [← pow_succ']
        congr 1
        omega
      have hpos : (0 : Int) < 2 ^ (fmt.precision - 1) := by positivity
      have heq : |m| = 2 * 2 ^ (fmt.precision - 1) := by omega
      obtain ⟨k, hk, hm2⟩ : ∃ k : Int, |k| < 2 ^ fmt.precision ∧ m = 2 * k := by
        rcases abs_eq (by positivity : (0 : Int) ≤ 2 * 2 ^ (fmt.precision - 1)) |>.1 heq with e | e
        · exact ⟨2 ^ (fmt.precision - 1), by rw [abs_of_pos hpos]; omega, e⟩
        · exact ⟨-2 ^ (fmt.precision - 1), by rw [abs_neg, abs_of_pos hpos]; omega, by omega⟩
      refine ⟨k, fmt.spacing q + 1, hk, by omega, ?_⟩
      rw [hv, hm2, zpow_add₀ (by norm_num)]
      push_cast
      ring

/-- The exponent and the fraction of a pattern written as a number. -/
theorem f32_fields (negative : Bool) (e f : Nat) (he : e < 256) (hf : f < 2 ^ 23) :
    f32Exponent (BitVec.ofNat 32 ((if negative then 2 ^ 31 else 0) + (e * 2 ^ 23 + f))) = e ∧
      f32Fraction (BitVec.ofNat 32 ((if negative then 2 ^ 31 else 0) + (e * 2 ^ 23 + f))) = f ∧
      f32Negative (BitVec.ofNat 32 ((if negative then 2 ^ 31 else 0) + (e * 2 ^ 23 + f)))
        = negative := by
  have hlt : (if negative then 2 ^ 31 else 0) + (e * 2 ^ 23 + f) < 2 ^ 32 := by
    cases negative <;> (simp; omega)
  refine ⟨?_, ?_, ?_⟩
  · rw [f32Exponent, toNat_field, BitVec.toNat_ofNat, Nat.mod_eq_of_lt hlt]
    cases negative <;> (simp; omega)
  · rw [f32Fraction, toNat_field, BitVec.toNat_ofNat, Nat.mod_eq_of_lt hlt]
    cases negative <;> (simp; omega)
  · rw [f32Negative, ← BitVec.msb_eq_getLsbD_last (x := BitVec.ofNat 32 _),
      BitVec.msb_eq_decide, BitVec.toNat_ofNat, Nat.mod_eq_of_lt hlt]
    cases negative <;> simp
    omega

/-- `f32Magnitude` in its two fields: the pattern of a magnitude of at most 24 significant bits
scales back to it. -/
theorem f32Magnitude_fields (k i : Nat) (hk : k < 2 ^ 24) (hn : k * 2 ^ i < 2 ^ 277) :
    ∃ e f, e < 255 ∧ f < 2 ^ 23 ∧ f32Magnitude (k * 2 ^ i) = e * 2 ^ 23 + f ∧
      (if e = 0 then f else (2 ^ 23 + f) * 2 ^ (e - 1)) = k * 2 ^ i := by
  generalize hnk : k * 2 ^ i = n at hn
  by_cases h23 : n < 2 ^ 23
  · exact ⟨0, n, by omega, h23, by rw [f32Magnitude, if_pos h23]; omega, by simp⟩
  · have hn0 : n ≠ 0 := by omega
    have hl1 := Nat.log2_self_le hn0
    have hl2 : n < 2 ^ (n.log2 + 1) := Nat.lt_log2_self
    have hl3 : n.log2 < 277 :=
      (Nat.pow_lt_pow_iff_right (a := 2) (by norm_num)).1 (lt_of_le_of_lt hl1 hn)
    clear hn
    obtain ⟨j, hj⟩ : ∃ j, n.log2 = 23 + j := by
      refine ⟨n.log2 - 23, ?_⟩
      have : 23 < n.log2 + 1 := (Nat.pow_lt_pow_iff_right (a := 2) (by norm_num)).1
        (lt_of_le_of_lt (not_lt.1 h23) hl2)
      omega
    have hj254 : j ≤ 253 := by omega
    have hji : j ≤ i := by
      have : n < 2 ^ (24 + i) := by
        rw [← hnk, Nat.pow_add]
        exact Nat.mul_lt_mul_of_pos_right hk (by positivity)
      have : n.log2 < 24 + i := (Nat.pow_lt_pow_iff_right (a := 2) (by norm_num)).1
        (lt_of_le_of_lt hl1 this)
      omega
    have hdvd : 2 ^ j ∣ n := by
      rw [← hnk]
      exact Dvd.dvd.mul_left (Nat.pow_dvd_pow 2 hji) k
    obtain ⟨m, hm⟩ := hdvd
    have hpos : 0 < 2 ^ j := by positivity
    rw [hj] at hl1 hl2
    have hm1 : 2 ^ 23 ≤ m := by
      rw [hm, Nat.pow_add, Nat.mul_comm (2 ^ 23)] at hl1
      exact Nat.le_of_mul_le_mul_left hl1 hpos
    have hm2 : m < 2 ^ 24 := by
      rw [hm, show 23 + j + 1 = j + 24 by omega, Nat.pow_add] at hl2
      exact Nat.lt_of_mul_lt_mul_left hl2
    refine ⟨j + 1, m - 2 ^ 23, by omega, by omega, ?_, ?_⟩
    · rw [f32Magnitude, if_neg h23, hj, Nat.add_sub_cancel_left, hm, Nat.mul_div_cancel_left m hpos]
      omega
    · rw [if_neg (by omega), Nat.add_sub_cancel, hm, Nat.add_sub_cancel' hm1, Nat.mul_comm]

/-- The f32 of a number of the single format stands for that number. -/
theorem f32Value_f32Pattern {v : Rat} (hv : FloatFormat.single.Has v)
    (hb : |v| < (2 : Rat) ^ (128 : Nat)) (zeroNegative : Bool) :
    f32Value (f32Pattern v zeroNegative) = some v := by
  obtain ⟨m, e, hm, he, rfl⟩ := hv
  obtain ⟨i, hi⟩ : ∃ i : Nat, e = -149 + i := ⟨(e + 149).toNat, by
    have : (-149 : Int) ≤ e := he
    omega⟩
  have hscale : |(m : Rat) * (2 : Rat) ^ e| * ((2 ^ 149 : Nat) : Rat)
      = ((m.natAbs * 2 ^ i : Nat) : Rat) := by
    rw [abs_mul, abs_of_pos (by positivity : (0 : Rat) < 2 ^ e), hi, zpow_add₀ (by norm_num),
      zpow_natCast]
    push_cast
    rw [Nat.cast_natAbs, Int.cast_abs]
    have : (2 : Rat) ^ (-149 : Int) * 2 ^ 149 = 1 := by
      rw [zpow_neg, show (149 : Int) = ((149 : Nat) : Int) by rfl, zpow_natCast]
      exact inv_mul_cancel₀ (by positivity)
    linear_combination |(m : Rat)| * 2 ^ i * this
  have hk : m.natAbs < 2 ^ 24 := by
    have h24 : |m| < 2 ^ 24 := hm
    have : ((m.natAbs : Nat) : Int) < ((2 ^ 24 : Nat) : Int) := by
      rw [Int.natCast_natAbs]
      exact_mod_cast h24
    exact_mod_cast this
  have hn : m.natAbs * 2 ^ i < 2 ^ 277 := by
    have : ((m.natAbs * 2 ^ i : Nat) : Rat) < ((2 ^ 277 : Nat) : Rat) := by
      rw [← hscale]
      push_cast
      calc |(m : Rat) * (2 : Rat) ^ e| * 2 ^ 149 < 2 ^ 128 * 2 ^ 149 :=
            mul_lt_mul_of_pos_right hb (by positivity)
        _ = 2 ^ 277 := by rw [← pow_add]
    exact_mod_cast this
  obtain ⟨ef, ff, hef, hff, hmag, hback⟩ := f32Magnitude_fields m.natAbs i hk hn
  clear hn
  set v : Rat := (m : Rat) * (2 : Rat) ^ e with hvdef
  have hfl : (wholePart (|v| * ((2 ^ 149 : Nat) : Rat))).toNat = m.natAbs * 2 ^ i := by
    rw [hscale, wholePart_eq, Int.floor_natCast, Int.toNat_natCast]
  generalize hneg : (if v = 0 then zeroNegative else decide (v < 0)) = negative
  obtain ⟨f1, f2, f3⟩ := f32_fields negative ef ff (by omega) hff
  have hpat : f32Pattern v zeroNegative
      = BitVec.ofNat 32 ((if negative then 2 ^ 31 else 0) + (ef * 2 ^ 23 + ff)) := by
    simp only [f32Pattern]
    rw [hneg, hfl, hmag]
  have hsc : f32Scaled (f32Pattern v zeroNegative) = m.natAbs * 2 ^ i := by
    rw [hpat, f32Scaled, f1, f2]
    exact hback
  rw [f32Value, f32Finite, hsc, hpat, f1, f3, if_pos (by simp; omega)]
  have habs : mkRat ((m.natAbs * 2 ^ i : Nat) : Int) (2 ^ 149) = |v| := by
    rw [Rat.mkRat_eq_div, Int.cast_natCast, ← hscale]
    field_simp
  rw [habs]
  congr 1
  by_cases h0 : v = 0
  · rw [h0]
    simp
  · rw [if_neg h0] at hneg
    subst hneg
    by_cases hlt : v < 0
    · simp [hlt, abs_of_neg hlt]
    · simp [hlt, abs_of_nonneg (not_lt.1 hlt)]

/-- A result rounded to the single format is what its f32 pattern stands for. -/
theorem f32Value_round {q v : Rat} (h : FloatFormat.single.round q = some v)
    (zeroNegative : Bool) : f32Value (f32Pattern v zeroNegative) = some v := by
  refine f32Value_f32Pattern (round_has h (by decide)) ?_ zeroNegative
  by_cases hq : q = 0
  · have hv : v = 0 := by simpa [FloatFormat.round, hq, eq_comm] using h
    rw [hv]
    positivity
  · have := (round_eq_some h hq).2
    rw [pow2_eq] at this
    exact this

end Sys2Proof.Machine
end

