-- ==== Sys2Proof/Laws/PerInstr.lean ====
section
/-! SUPPORT. Statements about an instruction as syntax, one lemma per constructor. The family
EncodingShape: the words of an instruction carry the fixed bits of its row of
spec/opcode_table.json, the op in the first four bits of a request, bits 31:16 of the address of a
command frame. -/

namespace Sys2Proof.Laws.EncodingShape

open Sys2Proof

/-- The fixed value of an instruction's row: the op of a request (30_encoding.md R52), the match
value's upper half of a command frame (30_encoding.md R56). -/
def fixedBits : Instr → Nat
  | .ptByname _ => 0
  | .ptByindex _ => 1
  | .addrPack _ _ _ => 2
  | .addrUnpack _ => 3
  | .addrSer _ _ => 4
  | .payBuild _ _ _ _ => 5
  | .payReset => 6
  | .frameEnable _ _ => 7
  | .frameDisable _ _ => 8
  | .frameReset _ _ => 9
  | .frameRead _ _ _ => 10
  | .frameWrite _ _ _ _ _ => 11
  | .serWrap _ _ _ => 12
  | .decF32 _ => 13
  | .decResp _ => 14
  | .decRespSer _ => 15
  | .wireEnable _ _ _ => 0x0300
  | .wireDisable _ _ _ => 0x0400
  | .wireReset _ _ _ => 0x0600
  | .wireRead _ _ _ => 0x1100
  | .wireWrite _ _ _ => 0x1200

/-- The words of an instruction carry its row's fixed bits. -/
def Statement (i : Instr) : Prop :=
  ∀ rxMax : Nat, match encode rxMax i with
  | .op bits => bitsNat 0 (bits.take 4) = fixedBits i
  | .frame addr32 _ => addr32.toNat / 2 ^ 16 = fixedBits i

/-- The upper half of an address word is the command code and the zero field. -/
theorem address_upper (c h m : Byte) :
    (c ++ 0#8 ++ h ++ m : Word32).toNat / 2 ^ 16 = c.toNat * 256 := by
  have hh := h.isLt
  have hm := m.isLt
  simp only [toNat_append_add, BitVec.toNat_ofNat]
  omega

theorem ptByname (k : BitVec 4) : Statement (.ptByname k) := fun _ => rfl
theorem ptByindex (i : Half) : Statement (.ptByindex i) := fun _ => rfl
theorem addrPack (c h m : Byte) : Statement (.addrPack c h m) := fun _ => rfl
theorem addrUnpack (a : Word32) : Statement (.addrUnpack a) := fun _ => rfl
theorem addrSer (a : Word32) (s : Strategy) : Statement (.addrSer a s) := fun _ => rfl
theorem payBuild (g : Bool) (i : Half) (t : BitVec 2) (v : F32) : Statement (.payBuild g i t v) :=
  fun _ => rfl
theorem payReset : Statement .payReset := fun _ => rfl
theorem frameEnable (h m : Byte) : Statement (.frameEnable h m) := fun _ => rfl
theorem frameDisable (h m : Byte) : Statement (.frameDisable h m) := fun _ => rfl
theorem frameReset (h m : Byte) : Statement (.frameReset h m) := fun _ => rfl
theorem frameRead (h m : Byte) (i : Half) : Statement (.frameRead h m i) := fun _ => rfl
theorem frameWrite (h m : Byte) (i : Half) (t : BitVec 2) (v : F32) :
    Statement (.frameWrite h m i t v) := fun _ => rfl
theorem serWrap (a : Word32) (s : Strategy) (p : Payload) : Statement (.serWrap a s p) :=
  fun _ => rfl
theorem decF32 (rx : List Byte) : Statement (.decF32 rx) := fun _ => rfl
theorem decResp (rx : List Byte) : Statement (.decResp rx) := fun _ => rfl
theorem decRespSer (rx : List Byte) : Statement (.decRespSer rx) := fun _ => rfl
theorem wireEnable (h m : Byte) (p : Payload) : Statement (.wireEnable h m p) :=
  fun _ => address_upper Config.enableCode h m
theorem wireDisable (h m : Byte) (p : Payload) : Statement (.wireDisable h m p) :=
  fun _ => address_upper Config.disableCode h m
theorem wireReset (h m : Byte) (p : Payload) : Statement (.wireReset h m p) :=
  fun _ => address_upper Config.resetCode h m
theorem wireRead (h m : Byte) (p : Payload) : Statement (.wireRead h m p) :=
  fun _ => address_upper Config.readCode h m
theorem wireWrite (h m : Byte) (p : Payload) : Statement (.wireWrite h m p) :=
  fun _ => address_upper Config.writeCode h m

end Sys2Proof.Laws.EncodingShape
end

