-- ==== Sys2Proof/Laws/Wire.lean ====
section
/-! SUPPORT. What one exchange of the host does, said once: every field after it, from the
transport's answer. -/

namespace Sys2Proof.Machine

variable (s : State) (isRead : Bool) (addr32 : Word32) (p : Payload)

/-- The receive queue after an exchange: a failed `send` leaves it as it was at the send, a failed
receive leaves the window's frames in it, and otherwise its oldest frame is taken. -/
def queueAfter (s : State) (isRead : Bool) : List (List Byte) :=
  let a := s.transport.nextAnswer
  let early := s.queueAtSend isRead
  if a.sendOk = false then early
  else if a.receiveOk = false then early ++ a.inWindow
  else (early ++ a.inWindow).tail

/-- The reply of an exchange: the oldest frame queued, a timeout, or a transport failure. -/
def replyOf (s : State) (isRead : Bool) : Reply :=
  let a := s.transport.nextAnswer
  if a.sendOk = true ∧ a.receiveOk = true then
    match s.queueAtSend isRead ++ a.inWindow with
    | [] => .timeout
    | f :: _ => .got f
  else .error

/-- Everything an exchange does. -/
theorem exchange_spec :
    (s.exchange isRead addr32 p).1 = replyOf s isRead ∧
      OnlyHostChanged s (s.exchange isRead addr32 p).2 ∧
      (s.exchange isRead addr32 p).2.transport.handed
        = s.transport.handed ++ [s.handedForm addr32 p] ∧
      (s.exchange isRead addr32 p).2.transport.rxQueue = queueAfter s isRead ∧
      (s.exchange isRead addr32 p).2.session.lastValue = s.session.lastValue := by
  simp only [State.exchange, replyOf, queueAfter]
  rcases hs : s.transport.nextAnswer.sendOk with _ | _
  · simp [State.sendFrame, OnlyHostChanged, Transport.advance]
  rcases hr : s.transport.nextAnswer.receiveOk with _ | _
  · simp [State.sendFrame, State.awaitReply, OnlyHostChanged, Transport.advance]
  rcases hq : s.queueAtSend isRead ++ s.transport.nextAnswer.inWindow with _ | ⟨f, q⟩
  · simp [State.takeReply, State.sendFrame, State.awaitReply, OnlyHostChanged, Transport.advance,
      hq]
  · simp [State.takeReply, State.sendFrame, State.awaitReply, OnlyHostChanged, Transport.advance,
      hq]

/-- What a transport will answer rests on its script and its counter alone. -/
theorem upcoming_congr (n : Nat) {t u : Transport} (ha : t.answers = u.answers)
    (hx : t.exchanges = u.exchanges) : t.upcoming n = u.upcoming n := by
  induction n generalizing t u with
  | zero => rfl
  | succ n ih =>
    simp only [Transport.upcoming, Transport.nextAnswer, ha, hx]
    rw [ih (t := t.advance) (u := u.advance) (by simp [Transport.advance, ha])
      (by simp [Transport.advance, hx])]

/-- An exchange uses up the first of the transport's answers and leaves the others. -/
theorem upcoming_of_onlyHostChanged {s t : State} (h : OnlyHostChanged s t) (n : Nat) :
    s.transport.upcoming (n + 1) = s.transport.nextAnswer :: t.transport.upcoming n :=
  congrArg _ (upcoming_congr n h.2.2.2.2.2.1.symm h.2.2.2.2.2.2.symm)

variable (v : F32) (r : CallResult)

@[simp] theorem State.finishCall_rom : (s.finishCall v r).rom = s.rom := rfl
@[simp] theorem State.finishCall_params : (s.finishCall v r).params = s.params := rfl
@[simp] theorem State.finishCall_requests : (s.finishCall v r).requests = s.requests := rfl
@[simp] theorem State.finishCall_response : (s.finishCall v r).response = s.response := rfl
@[simp] theorem State.finishCall_transport : (s.finishCall v r).transport = s.transport := rfl
@[simp] theorem State.finishCall_phase : (s.finishCall v r).session.phase = .idle := rfl
@[simp] theorem State.finishCall_address :
    (s.finishCall v r).session.address = s.session.address := rfl
@[simp] theorem State.finishCall_lastValue : (s.finishCall v r).session.lastValue = v := rfl
@[simp] theorem State.finishCall_lastCall : (s.finishCall v r).session.lastCall = some r := rfl

/-- The end of a read call is the end of a call, with some value and some result. -/
theorem finishRead_eq (s : State) (y : Reply) : ∃ v r, s.finishRead y = s.finishCall v r := by
  unfold State.finishRead
  split
  · exact ⟨_, _, rfl⟩
  · exact ⟨_, _, rfl⟩
  · split
    · exact ⟨_, _, rfl⟩
    · exact ⟨_, _, rfl⟩

/-- A drained command frame of an idle session. -/
theorem sendAndDrain_spec (h : s.session.phase = .idle) :
    ∃ t, sendAndDrain addr32 p s = .next t ∧ OnlyHostChanged s t ∧
      t.transport.handed = s.transport.handed ++ [s.handedForm addr32 p] ∧
      t.transport.rxQueue = queueAfter s false ∧
      t.session.lastValue = s.session.lastValue ∧ t.session.phase = .idle ∧
      t.session.lastCall
        = some (match replyOf s false with
          | .error => .transportError
          | .timeout => .done
          | .got _ => .done) := by
  obtain ⟨h1, h2, h3, h4, h5⟩ := exchange_spec s false addr32 p
  refine ⟨_, by rw [sendAndDrain, if_pos h], ?_⟩
  rw [h1]
  exact ⟨h2, h3, h4, h5, rfl, rfl⟩

/-- A command frame of an idle session whose reply is decoded. -/
theorem sendAndRead_spec (h : s.session.phase = .idle) :
    ∃ u t, sendAndRead addr32 p s = .next t ∧ t = u.finishRead (replyOf s true) ∧
      OnlyHostChanged s u ∧ OnlyHostChanged s t ∧
      t.transport.handed = s.transport.handed ++ [s.handedForm addr32 p] ∧
      t.transport.rxQueue = queueAfter s true ∧ u.session.lastValue = s.session.lastValue ∧
      t.session.phase = .idle := by
  obtain ⟨h1, h2, h3, h4, h5⟩ := exchange_spec s true addr32 p
  refine ⟨(s.exchange true addr32 p).2, _, by rw [sendAndRead, if_pos h, h1], rfl, h2, ?_⟩
  obtain ⟨v, r, he⟩ := finishRead_eq (s.exchange true addr32 p).2 (replyOf s true)
  rw [he]
  exact ⟨h2, h3, h4, h5, rfl⟩

/-- A command frame begun inside an exchange is a race. -/
theorem send_not_idle (h : s.session.phase ≠ .idle) :
    sendAndDrain addr32 p s = .fault .exchangeInFlight ∧
      sendAndRead addr32 p s = .fault .exchangeInFlight := by
  simp [sendAndDrain, sendAndRead, h]

end Sys2Proof.Machine
end

