-- ==== Sys2Proof/Laws/Step.lean ====
section
/-! SUPPORT. Everything a step can do, said once: the step by its port item, and an instruction by
what it changes. -/

namespace Sys2Proof.Machine

/-- A step that goes on either found nothing outstanding or ran the instruction it took. -/
theorem step_eq_next {s t : State} (h : step s = .next t) :
    (s.requests = [] ∧ t = s) ∨
      ∃ r q i, s.requests = r :: q ∧ decode s.params.rxMax r = .ok i ∧
        exec i (s.withRequests q) = .next t := by
  unfold step at h
  split at h
  · rename_i hf
    cases h
    exact .inl ⟨(State.fetch_eq_none_iff s).1 hf, rfl⟩
  · rename_i r s' hf
    obtain ⟨q, hq, rfl⟩ := State.fetch_eq_some s hf
    split at h
    · cases h
    · rename_i i hi
      exact .inr ⟨r, q, i, hq, hi, h⟩

/-- The interpreter's response has only the fields its status leaves valid. -/
theorem interpret_fieldsFit (rom : List ParamSpec) (rx : List Byte) (b n : Nat) :
    (interpret rom rx b n).FieldsFit := by
  rcases interpret_cases rom rx b n with h | ⟨f, h⟩ <;> rw [h]
  · simp [raise, Response.FieldsFit, Response.NoResult]
  · rcases interpretFrame_cases rom f with ⟨n, h⟩ | ⟨t, h⟩ <;> rw [h]
    · simp [frameResponse, Response.FieldsFit, Response.NoResult, Response.withoutFrame]
    · cases t <;> simp [typedValue, frameResponse, Response.FieldsFit]

/-- The word `build_address` gives for a command code is a packed address. -/
theorem packAddress_isPacked {cmd : Byte} (hc : cmd ∈ [3#8, 4#8, 6#8, 17#8, 18#8])
    (hostId motorId : Byte) : IsPackedAddress (packAddress cmd hostId motorId) := by
  have hh := hostId.isLt
  have hm := motorId.isLt
  refine ⟨?_, ?_⟩
  · convert hc using 1
    apply BitVec.eq_of_toNat_eq
    rw [toNat_field, packAddress_toNat]
    omega
  · apply BitVec.eq_of_toNat_eq
    rw [toNat_field, packAddress_toNat]
    simp
    omega

/-- An instruction either ends with a response, or is one exchange of the host with a packed
address. -/
theorem exec_cases (i : Instr) (s : State) :
    (∃ r, exec i s = respond r s ∧ r.FieldsFit) ∨
      ∃ a p, IsPackedAddress a ∧
        (exec i s = sendAndDrain a p s ∨ exec i s = sendAndRead a p s) := by
  cases i with
  | wireEnable h m p => exact .inr ⟨_, p, packAddress_isPacked (by decide) h m, .inl rfl⟩
  | wireDisable h m p => exact .inr ⟨_, p, packAddress_isPacked (by decide) h m, .inl rfl⟩
  | wireReset h m p => exact .inr ⟨_, p, packAddress_isPacked (by decide) h m, .inl rfl⟩
  | wireRead h m p => exact .inr ⟨_, p, packAddress_isPacked (by decide) h m, .inr rfl⟩
  | wireWrite h m p => exact .inr ⟨_, p, packAddress_isPacked (by decide) h m, .inl rfl⟩
  | decResp rx => exact .inl ⟨_, rfl, interpret_fieldsFit ..⟩
  | decRespSer rx => exact .inl ⟨_, rfl, interpret_fieldsFit ..⟩
  | decF32 rx =>
    refine .inl ⟨_, rfl, ?_⟩
    unfold decodeFloat
    repeat (first | split | simp [Response.FieldsFit, raise, Response.NoResult])
  | addrUnpack a =>
    refine .inl ⟨_, rfl, ?_⟩
    simp only [Response.FieldsFit]
    split_ifs <;> simp [Response.NoResult, Response.withoutRawFields]
  | ptByname k =>
    simp only [exec, execPtByname]
    split <;> exact .inl ⟨_, rfl, by simp [Response.FieldsFit, illegalOperand, raise,
      Response.NoResult]⟩
  | ptByindex i =>
    simp only [exec, execPtByindex]
    split <;> exact .inl ⟨_, rfl, by simp [Response.FieldsFit, foundRow]⟩
  | addrPack c h m =>
    simp only [exec, execAddrPack]
    split <;> exact .inl ⟨_, rfl, by simp [Response.FieldsFit, illegalOperand, raise,
      Response.NoResult]⟩
  | payBuild g i t v =>
    simp only [exec, execPayBuild]
    repeat (first
      | split
      | exact .inl ⟨_, rfl, by simp [Response.FieldsFit, illegalOperand, raise,
          Response.NoResult]⟩)
  | frameWrite h m i t v =>
    simp only [exec, execFrameWrite]
    split <;> exact .inl ⟨_, rfl, by simp [Response.FieldsFit, illegalOperand, raise,
      Response.NoResult]⟩
  | addrSer a s => exact .inl ⟨_, rfl, trivial⟩
  | payReset => exact .inl ⟨_, rfl, trivial⟩
  | frameEnable h m => exact .inl ⟨_, rfl, trivial⟩
  | frameDisable h m => exact .inl ⟨_, rfl, trivial⟩
  | frameReset h m => exact .inl ⟨_, rfl, trivial⟩
  | frameRead h m i => exact .inl ⟨_, rfl, trivial⟩
  | serWrap a s p => exact .inl ⟨_, rfl, trivial⟩

/-- What an instruction that goes on has changed: the response port alone, or the host alone by one
exchange begun and ended in Idle. -/
theorem exec_eq_next {i : Instr} {s t : State} (h : exec i s = .next t) :
    (∃ r, t = s.withResponse (some r) ∧ r.FieldsFit) ∨
      (s.session.phase = .idle ∧ OnlyHostChanged s t ∧ t.session.phase = .idle ∧
        ∃ a p, IsPackedAddress a ∧
          t.transport.handed = s.transport.handed ++ [s.handedForm a p]) := by
  rcases exec_cases i s with ⟨r, he, hr⟩ | ⟨a, p, ha, he⟩
  · rw [he] at h
    cases h
    exact .inl ⟨r, rfl, hr⟩
  · by_cases hi : s.session.phase = .idle
    · rcases he with he | he
      · obtain ⟨t', h1, h2, h3, -, -, h6, -⟩ := sendAndDrain_spec s a p hi
        rw [he, h1] at h
        cases h
        exact .inr ⟨hi, h2, h6, a, p, ha, h3⟩
      · obtain ⟨u, t', h1, -, -, h4, h5, -, -, h8⟩ := sendAndRead_spec s a p hi
        rw [he, h1] at h
        cases h
        exact .inr ⟨hi, h4, h8, a, p, ha, h5⟩
    · obtain ⟨h1, h2⟩ := send_not_idle s a p hi
      rcases he with he | he <;> simp [he, h1, h2] at h

end Sys2Proof.Machine
end

