-- ==== Sys2Proof/Tests/Slice0.lean ====
section
/-! SUPPORT. Tests: ill-formed terms refused, one word of every instruction written out bit by bit,
results from spec/95_test_vectors.md, and for each obligation a state and operands that meet its
hypotheses. -/

namespace Sys2Proof.Tests

open Sys2Proof.Machine

/-- The bits of a request as they are written, 0 and 1. -/
def bits (l : List Nat) : List Bool := l.map (· == 1)

/-- A state after a run, if there is one. -/
def after (o : Host.Outcome State Fault Refusal) : Option State :=
  match o with
  | .next t => some t
  | .fault _ => none
  | .refused _ => none

/-- The response that stands at the port after an operation. -/
def answer (o : Host.Outcome State Fault Refusal) : Option Response :=
  (after o).bind (·.response)

/-- A transport that takes the frame and delivers these frames inside the window. -/
def delivers (frames : List (List Byte)) : Answer :=
  { early := [], sendOk := true, inWindow := frames, receiveOk := true }

/-- A host with address (253, 1), a binding, a `last_value` of 10.0 and a scripted transport, every
field a numeral. -/
def host (binding : Binding) (answers : List Answer) : State :=
  { rom := Config.romTable
    params :=
      { rxMax := 65535, serialMinLen := 15, serialAddrStrategy := .plain, binding := binding,
        foldArith := .single }
    requests := []
    response := none
    session :=
      { address := { hostId := 253, motorId := 1 }, lastValue := 0x41200000, phase := .idle,
        lastCall := none }
    transport := { rxQueue := [], handed := [], answers := answers, exchanges := 0 } }

/-! ### Well-formedness: each check refuses an ill-formed term -/

theorem test_wellFormed_length :
    (Instr.decF32 (List.replicate 65536 0)).wellFormed 65535 = false ∧
      (Instr.decResp (List.replicate 65536 0)).wellFormed 65535 = false ∧
      (Instr.decRespSer (List.replicate 65536 0)).wellFormed 65535 = false ∧
      (Instr.decF32 (List.replicate 65535 0)).wellFormed 65535 = true := by
  simp only [Instr.wellFormed, List.length_replicate]
  decide

theorem test_wellFormed_shape :
    (Instr.wireEnable 253 1 #v[1, 0, 0, 0, 0, 0, 0, 0]).wellFormed 65535 = false ∧
      (Instr.wireDisable 253 1 #v[0, 0, 0, 0, 0, 0, 0, 1]).wellFormed 65535 = false ∧
      (Instr.wireReset 253 1 #v[0, 0, 0, 0, 0, 0, 0, 0]).wellFormed 65535 = false ∧
      (Instr.wireRead 253 1 #v[0x19, 0x70, 0, 0, 0, 0, 0, 1]).wellFormed 65535 = false ∧
      (Instr.wireWrite 253 1 #v[0x19, 0x70, 0, 1, 0, 0, 0, 0]).wellFormed 65535 = false := by decide

/-! ### Words written out from 30_encoding.md R52, R53, R56 -/

theorem test_word_ptByname :
    decode 65535 (.op (bits [0, 0, 0, 0, 0, 1, 0, 1])) = .ok (.ptByname 5) := by decide

theorem test_word_ptByindex :
    decode 65535 (.op (bits [0, 0, 0, 1, 0, 0, 0, 1, 1, 0, 0, 1, 0, 1, 1, 1, 0, 0, 0, 0]))
      = .ok (.ptByindex 0x1970) := by decide

theorem test_word_addrPack :
    decode 65535 (.op (bits ([0, 0, 1, 0] ++ [0, 0, 0, 1, 0, 0, 1, 0] ++ [1, 1, 1, 1, 1, 1, 0, 1]
      ++ [0, 0, 0, 0, 0, 0, 0, 1]))) = .ok (.addrPack 18 253 1) := by decide

theorem test_word_addrUnpack :
    decode 65535 (.op (bits ([0, 0, 1, 1] ++ [0, 0, 0, 1, 0, 0, 1, 0] ++ [0, 0, 0, 0, 0, 0, 0, 0]
      ++ [1, 1, 1, 1, 1, 1, 0, 1] ++ [0, 0, 0, 0, 0, 0, 0, 1])))
      = .ok (.addrUnpack 0x1200FD01) := by decide

theorem test_word_addrSer :
    decode 65535 (.op (bits ([0, 1, 0, 0] ++ [1, 1, 1, 0, 0, 0, 0, 0] ++ [0, 0, 0, 0, 0, 0, 0, 0]
      ++ [0, 0, 0, 0, 0, 0, 0, 0] ++ [0, 0, 0, 0, 0, 0, 0, 1] ++ [1])))
      = .ok (.addrSer 0xE0000001 .rot3) := by decide

theorem test_word_payBuild :
    decode 65535 (.op (bits ([0, 1, 0, 1] ++ [1] ++ [0, 0, 0, 0, 0, 1, 0, 1, 0, 1, 1, 1, 0, 0, 0, 0]
      ++ [1, 0] ++ [0, 1, 0, 0, 0, 0, 0, 0] ++ [0, 0, 0, 0, 0, 0, 0, 0]
      ++ [0, 0, 0, 0, 0, 0, 0, 0] ++ [0, 0, 0, 0, 0, 0, 0, 0])))
      = .ok (.payBuild true 0x0570 2 0x40000000) := by decide

theorem test_word_payReset : decode 65535 (.op (bits [0, 1, 1, 0])) = .ok .payReset := by decide

theorem test_word_frameEnable :
    decode 65535 (.op (bits ([0, 1, 1, 1] ++ [1, 1, 1, 1, 1, 1, 0, 1] ++ [0, 0, 0, 0, 0, 0, 0, 1])))
      = .ok (.frameEnable 253 1) := by decide

theorem test_word_frameDisable :
    decode 65535 (.op (bits ([1, 0, 0, 0] ++ [1, 1, 1, 1, 1, 1, 0, 1] ++ [0, 0, 0, 0, 0, 0, 0, 1])))
      = .ok (.frameDisable 253 1) := by decide

theorem test_word_frameReset :
    decode 65535 (.op (bits ([1, 0, 0, 1] ++ [1, 1, 1, 1, 1, 1, 0, 1] ++ [0, 0, 0, 0, 0, 0, 0, 1])))
      = .ok (.frameReset 253 1) := by decide

theorem test_word_frameRead :
    decode 65535 (.op (bits ([1, 0, 1, 0] ++ [1, 1, 1, 1, 1, 1, 0, 1] ++ [0, 0, 0, 0, 0, 0, 0, 1]
      ++ [0, 0, 0, 1, 1, 0, 0, 1, 0, 1, 1, 1, 0, 0, 0, 0])))
      = .ok (.frameRead 253 1 0x1970) := by decide

theorem test_word_frameWrite :
    decode 65535 (.op (bits ([1, 0, 1, 1] ++ [1, 1, 1, 1, 1, 1, 0, 1] ++ [0, 1, 1, 1, 1, 1, 1, 1]
      ++ [0, 0, 0, 1, 0, 1, 1, 0, 0, 1, 1, 1, 0, 0, 0, 0] ++ [0, 0]
      ++ [1, 1, 0, 0, 0, 0, 0, 0] ++ [0, 1, 0, 0, 0, 0, 0, 0] ++ [0, 0, 0, 0, 0, 0, 0, 0]
      ++ [0, 0, 0, 0, 0, 0, 0, 0]))) = .ok (.frameWrite 253 127 0x1670 0 0xC0400000) := by decide

theorem test_word_serWrap :
    decode 65535 (.op (bits ([1, 1, 0, 0] ++ [0, 0, 0, 1, 0, 0, 1, 0] ++ [0, 0, 0, 0, 0, 0, 0, 0]
      ++ [1, 1, 1, 1, 1, 1, 0, 1] ++ [0, 0, 0, 0, 0, 0, 0, 1] ++ [0]
      ++ [0, 0, 0, 0, 0, 1, 0, 1] ++ [0, 1, 1, 1, 0, 0, 0, 0] ++ [0, 0, 0, 0, 0, 0, 0, 0]
      ++ [0, 0, 0, 0, 0, 0, 0, 0] ++ [0, 0, 0, 0, 0, 0, 1, 0] ++ [0, 0, 0, 0, 0, 0, 0, 0]
      ++ [0, 0, 0, 0, 0, 0, 0, 0] ++ [0, 0, 0, 0, 0, 0, 0, 0])))
      = .ok (.serWrap 0x1200FD01 .plain #v[0x05, 0x70, 0, 0, 2, 0, 0, 0]) := by decide

theorem test_word_decF32 :
    decode 65535 (.op (bits ([1, 1, 0, 1] ++ [0, 0, 0, 0, 0, 0, 0, 0, 0, 0, 0, 0, 0, 0, 0, 1]
      ++ [0, 0, 0, 1, 1, 0, 0, 1]))) = .ok (.decF32 [0x19]) := by decide

theorem test_word_decResp :
    decode 65535 (.op (bits ([1, 1, 1, 0] ++ [0, 0, 0, 0, 0, 0, 0, 0, 0, 0, 0, 0, 0, 0, 1, 0]
      ++ [0, 0, 0, 1, 1, 0, 0, 1] ++ [0, 1, 1, 1, 0, 0, 0, 0]))) = .ok (.decResp [0x19, 0x70]) := by
  decide

theorem test_word_decRespSer :
    decode 65535 (.op (bits ([1, 1, 1, 1] ++ [0, 0, 0, 0, 0, 0, 0, 0, 0, 0, 0, 0, 0, 0, 1, 0]
      ++ [0, 1, 0, 0, 0, 0, 0, 1] ++ [0, 1, 0, 1, 0, 1, 0, 0])))
      = .ok (.decRespSer [0x41, 0x54]) := by decide

/-- A length field of five bits, which is the least that holds the least `RX_MAX`, 17. -/
theorem test_word_decF32_shortest :
    decode 17 (.op (bits ([1, 1, 0, 1] ++ [0, 0, 0, 0, 1] ++ [0, 0, 0, 1, 1, 0, 0, 1])))
        = .ok (.decF32 [0x19]) ∧
      decode 17 (.op (bits ([1, 1, 0, 1] ++ [1, 0, 0, 1, 0] ++ List.replicate 144 0)))
        = .error .receivedTooLong := by decide +kernel

theorem test_word_wireFrames :
    decode 65535 (.frame 0x0300FD01 #v[0, 0, 0, 0, 0, 0, 0, 0])
        = .ok (.wireEnable 253 1 #v[0, 0, 0, 0, 0, 0, 0, 0]) ∧
      decode 65535 (.frame 0x0400FD01 #v[0, 0, 0, 0, 0, 0, 0, 0])
        = .ok (.wireDisable 253 1 #v[0, 0, 0, 0, 0, 0, 0, 0]) ∧
      decode 65535 (.frame 0x0600FD01 #v[1, 0, 0, 0, 0, 0, 0, 0])
        = .ok (.wireReset 253 1 #v[1, 0, 0, 0, 0, 0, 0, 0]) ∧
      decode 65535 (.frame 0x1100FD7F #v[0x19, 0x70, 0, 0, 0, 0, 0, 0])
        = .ok (.wireRead 253 127 #v[0x19, 0x70, 0, 0, 0, 0, 0, 0]) ∧
      decode 65535 (.frame 0x1200FD01 #v[0x05, 0x70, 0, 0, 2, 0, 0, 0])
        = .ok (.wireWrite 253 1 #v[0x05, 0x70, 0, 0, 2, 0, 0, 0]) := by decide

/-! ### Results (95_test_vectors.md) -/

/-- 60_exceptions.md R200. -/
theorem test_status_codes :
    [Status.ok, .tooShort, .incompleteFrame, .unknownParameter, .illegalOperand].map Status.code
      = [0, 1, 2, 3, 4] := by decide

/-- V40-6. -/
theorem test_ptByname :
    answer (exec (.ptByname 5) (host .native []))
      = some { status := .ok, index := some 0x1970, ptype := some .float32, width := some 4 } := by
  decide

/-- V40-11. -/
theorem test_ptByname_reserved :
    (answer (exec (.ptByname 10) (host .native []))).map (·.status) = some .illegalOperand := by
  decide

/-- V40-14. -/
theorem test_ptByindex :
    answer (exec (.ptByindex 0x2570) (host .native []))
      = some { status := .ok, found := some true, paramId := some 9, index := some 0x2570,
               ptype := some .float32, width := some 4 } := by decide

/-- V40-16. -/
theorem test_ptByindex_swapped :
    answer (exec (.ptByindex 0x7005) (host .native []))
      = some { status := .ok, found := some false } := by decide

/-- V41-5. -/
theorem test_addrPack :
    answer (exec (.addrPack 18 253 1) (host .native []))
      = some { status := .ok, addr32 := some 0x1200FD01 } := by decide

/-- V41-10. -/
theorem test_addrPack_reserved :
    (answer (exec (.addrPack 19 253 1) (host .native []))).map (fun r => (r.status, r.addr32))
      = some (.illegalOperand, none) := by decide

/-- V41-12. -/
theorem test_addrUnpack :
    answer (exec (.addrUnpack 0x0600FD7F) (host .native []))
      = some { status := .ok, cmd := some 6, mid := some 0, hostId := some 253,
               motorId := some 127 } := by decide

/-- V41-14. -/
theorem test_addrUnpack_middle :
    (answer (exec (.addrUnpack 0x1201FD01) (host .native []))).map
        (fun r => (r.status, r.cmd, r.mid, r.hostId, r.motorId))
      = some (.illegalOperand, some 18, some 1, some 253, some 1) := by decide

/-- V41-16. -/
theorem test_addrSer_plain :
    answer (exec (.addrSer 0x1200FD01 .plain) (host .native []))
      = some { status := .ok, bytes4 := some #v[0x12, 0x00, 0xFD, 0x01] } := by decide

/-- V41-22. -/
theorem test_addrSer_rot3 :
    answer (exec (.addrSer 0xFF00FDFF .rot3) (host .native []))
      = some { status := .ok, bytes4 := some #v[0xF8, 0x07, 0xEF, 0xFF] } := by decide

/-- V42-17: -129.0 as Int8. -/
theorem test_payBuild_int8 :
    answer (exec (.payBuild true 0x0570 2 0xC3010000) (host .native []))
      = some { status := .ok, p := some #v[0x05, 0x70, 0, 0, 0x7F, 0, 0, 0] } := by decide

/-- V42-28: -300.0 as Int16. -/
theorem test_payBuild_int16 :
    answer (exec (.payBuild true 0x0571 1 0xC3960000) (host .native []))
      = some { status := .ok, p := some #v[0x05, 0x71, 0, 0, 0xD4, 0xFE, 0, 0] } := by decide

/-- V42-32. -/
theorem test_payReset :
    answer (exec .payReset (host .native []))
      = some { status := .ok, p := some #v[1, 0, 0, 0, 0, 0, 0, 0] } := by decide

/-- V43-1. -/
theorem test_frameEnable :
    answer (exec (.frameEnable 253 1) (host .native []))
      = some { status := .ok, addr32 := some 0x0300FD01,
               p := some #v[0, 0, 0, 0, 0, 0, 0, 0] } := by decide

/-- V43-2. -/
theorem test_frameDisable :
    answer (exec (.frameDisable 253 1) (host .native []))
      = some { status := .ok, addr32 := some 0x0400FD01,
               p := some #v[0, 0, 0, 0, 0, 0, 0, 0] } := by decide

/-- V43-3. -/
theorem test_frameReset :
    answer (exec (.frameReset 253 1) (host .native []))
      = some { status := .ok, addr32 := some 0x0600FD01,
               p := some #v[1, 0, 0, 0, 0, 0, 0, 0] } := by decide

/-- V43-5. -/
theorem test_frameRead :
    answer (exec (.frameRead 0 255 0xBEEF) (host .native []))
      = some { status := .ok, addr32 := some 0x110000FF,
               p := some #v[0xBE, 0xEF, 0, 0, 0, 0, 0, 0] } := by decide

/-- V43-7. -/
theorem test_frameWrite :
    answer (exec (.frameWrite 253 127 0x1670 0 0xC0400000) (host .native []))
      = some { status := .ok, addr32 := some 0x1200FD7F,
               p := some #v[0x16, 0x70, 0, 0, 0, 0, 0x40, 0xC0] } := by decide

/-- V43-8. -/
theorem test_frameWrite_reserved :
    (answer (exec (.frameWrite 253 1 0x0570 3 0x40000000) (host .native []))).map
        (fun r => (r.status, r.addr32, r.p)) = some (.illegalOperand, none, none) := by decide

/-- V43-10. -/
theorem test_serWrap :
    answer (exec (.serWrap 0x1200FD01 .rot3 #v[0x05, 0x70, 0, 0, 2, 0, 0, 0]) (host .native []))
      = some { status := .ok,
               tx := some #v[0x41, 0x54, 0x90, 0x07, 0xE8, 0x08, 0x08, 0x05, 0x70, 0, 0, 2, 0, 0,
                 0, 0x0D, 0x0A] } := by decide

/-- V44-2. -/
theorem test_decF32 :
    answer (exec (.decF32 [0xFF, 0xFF, 0xFF, 0xFF, 0, 0, 0x80, 0x3F, 0xAA, 0xBB])
        (host .native []))
      = some { status := .ok, fval := some 0x3F800000 } := by decide

/-- V44-3. -/
theorem test_decF32_short :
    (answer (exec (.decF32 [0x19, 0x70, 0, 0, 0xF9, 0x0F, 0xC9]) (host .native []))).map
      (·.status) = some .tooShort := by decide

/-- V44-12. -/
theorem test_decResp :
    answer (exec (.decResp [0x05, 0x70, 0xAA, 0xBB, 0xFF, 1, 2, 3]) (host .native []))
      = some { status := .ok, parameterIndex := some 0x0570, rawValue := some 0x030201FF,
               reservedBytes := some #v[0xAA, 0xBB], tag := some .int8, ival := some 255 } := by
  decide

/-- V44-9. -/
theorem test_decResp_short :
    (answer (exec (.decResp [0x12, 0x34, 0, 0, 1, 2, 3]) (host .native []))).map (·.status)
      = some .incompleteFrame := by decide

/-- V44-16. -/
theorem test_decRespSer :
    answer (exec (.decRespSer [0, 0, 0, 0, 0, 0, 0, 0x19, 0x70, 0, 0, 0xF9, 0x0F, 0xC9, 0x3F, 0,
        0]) (host .native []))
      = some { status := .ok, parameterIndex := some 0x1970, rawValue := some 0x3FC90FF9,
               reservedBytes := some #v[0, 0], tag := some .float32,
               fval := some 0x3FC90FF9 } := by decide

/-- V44-17. -/
theorem test_decRespSer_unknown :
    (answer (exec (.decRespSer [0x41, 0x54, 0x12, 0, 0xFD, 1, 8, 0x70, 0x19, 0, 0, 0xF9, 0x0F,
        0xC9, 0x3F, 0x0D, 0x0A]) (host .native []))).map
        (fun r => (r.status, r.parameterIndex, r.rawValue, r.tag))
      = some (.unknownParameter, some 0x7019, some 0x3FC90FF9, none) := by decide

/-- V45-8: `enable()` when `send` fails. -/
theorem test_wireEnable_sendFails :
    (after (hostEnable (host .native [{ delivers [] with sendOk := false }]))).map
        (·.session.lastCall) = some (some .transportError) := by decide

/-- P4, row 2, on the serial binding. -/
theorem test_wireDisable :
    (after (exec (.wireDisable 253 1 #v[0, 0, 0, 0, 0, 0, 0, 0])
        (host .serial [delivers []]))).map (·.transport.handed)
      = some [.serial #v[0x41, 0x54, 0x04, 0, 0xFD, 1, 8, 0, 0, 0, 0, 0, 0, 0, 0, 0x0D,
        0x0A]] := by decide

/-- P4, row 1, on the native binding. -/
theorem test_wireReset :
    (after (hostResetPosition (host .native [delivers []]))).map (·.transport.handed)
      = some [.native 0x0600FD01 #v[1, 0, 0, 0, 0, 0, 0, 0]] := by decide

/-- V45-3: a reply about another parameter is taken. -/
theorem test_wireRead :
    (after (hostReadParameter Config.mechPos
        (host .native [delivers [[0x1B, 0x70, 0, 0, 0, 0, 0x80, 0x3F]]]))).map
        (fun t => (t.session.lastValue, t.session.lastCall))
      = some (0x3F800000, some (.value 0x3F800000 none)) := by decide

/-- V45-5: a reply of seven bytes. -/
theorem test_wireRead_short :
    (after (hostReadParameter Config.mechPos
        (host .native [delivers [[0x19, 0x70, 0, 0, 0, 0, 0x40]]]))).map
        (fun t => (t.session.lastValue, t.session.lastCall))
      = some (0x41200000, some (.value 0x41200000 none)) := by decide

/-- V45-7: a silent transport. -/
theorem test_wireWrite :
    (after (hostWriteParameter Config.speedTarget 0x40A00000
        (host .native [delivers []]))).map
        (fun t => (t.transport.handed, t.session.lastValue, t.session.lastCall))
      = some ([.native 0x1200FD01 #v[0x0A, 0x70, 0, 0, 0, 0, 0xA0, 0x40]], 0x41200000,
        some .done) := by decide

/-- P1: the five frames of `set_velocity(5.0)`. -/
theorem test_setVelocity :
    (after (hostSetVelocityDefault 0x40A00000 (host .native (List.replicate 5 (delivers []))))).map
        (·.transport.handed)
      = some [.native 0x1200FD01 #v[0x05, 0x70, 0, 0, 2, 0, 0, 0],
          .native 0x0300FD01 #v[0, 0, 0, 0, 0, 0, 0, 0],
          .native 0x1200FD01 #v[0x18, 0x70, 0, 0, 0, 0, 0xB8, 0x41],
          .native 0x1200FD01 #v[0x22, 0x70, 0, 0, 0, 0, 0xA0, 0x41],
          .native 0x1200FD01 #v[0x0A, 0x70, 0, 0, 0, 0, 0xA0, 0x40]] := by decide

/-- P1 where the second exchange fails in `send` (45_host_sequences.md R173). -/
theorem test_setVelocity_fails :
    (after (hostSetVelocityDefault 0x40A00000 (host .native
        [delivers [], { delivers [] with sendOk := false }, delivers []]))).map
        (fun t => (t.transport.handed, t.session.lastCall))
      = some ([.native 0x1200FD01 #v[0x05, 0x70, 0, 0, 2, 0, 0, 0],
          .native 0x0300FD01 #v[0, 0, 0, 0, 0, 0, 0, 0]], some .transportError) := by decide

/-- P3: `set_position(-3.0)` of a session made for motor 127, which stands at 3.0. -/
theorem test_setPosition :
    (after (hostSetPositionDefault 0xC0400000
        (State.makeSession (host .native (delivers [[0x19, 0x70, 0, 0, 0, 0, 0x40, 0x40]]
          :: List.replicate 6 (delivers []))) none 127))).map (·.transport.handed)
      = some [.native 0x1100FD7F #v[0x19, 0x70, 0, 0, 0, 0, 0, 0],
          .native 0x1200FD7F #v[0x05, 0x70, 0, 0, 1, 0, 0, 0],
          .native 0x0300FD7F #v[0, 0, 0, 0, 0, 0, 0, 0],
          .native 0x1200FD7F #v[0x17, 0x70, 0, 0, 0, 0, 0x20, 0x41],
          .native 0x1200FD7F #v[0x24, 0x70, 0, 0, 0, 0, 0x20, 0x41],
          .native 0x1200FD7F #v[0x25, 0x70, 0, 0, 0, 0, 0xA0, 0x41],
          .native 0x1200FD7F #v[0x16, 0x70, 0, 0, 0xB6, 0x1F, 0x52, 0x40]] := by decide +kernel

/-- S4 in either intermediate precision, and V45-12. -/
theorem test_fold :
    foldTarget .single 0x40400000 0xC0400000 = some 0x40521FB6 ∧
      foldTarget .double 0x40400000 0xC0400000 = some 0x40521FB5 ∧
      foldTarget .single 0x00000000 0x3F800000 = some 0x3F800000 := by decide +kernel

/-- V45-10, to within one unit in the last place. -/
theorem test_fold_turns :
    (foldTarget .single 0x41200000 0x3F000000 = some 0x41510FDB ∨
        foldTarget .single 0x41200000 0x3F000000 = some 0x41510FDC ∨
        foldTarget .single 0x41200000 0x3F000000 = some 0x41510FDA) ∧
      (foldTarget .double 0x41200000 0x3F000000 = some 0x41510FDB ∨
        foldTarget .double 0x41200000 0x3F000000 = some 0x41510FDC ∨
        foldTarget .double 0x41200000 0x3F000000 = some 0x41510FDA) := by decide +kernel

/-- A request placed on the machine after reset is run by the next step. -/
theorem test_step_runs :
    answer (step (State.reset.withFetchWord 4 6))
      = some { status := .ok, p := some #v[1, 0, 0, 0, 0, 0, 0, 0] } := by decide

/-! ### States and operands that meet the hypotheses of the obligations, at the boundaries of their
ranges: `test_meets_<obligation>` -/

theorem test_meets_PtBynameAnswersRow :
    State.reset.rom = Config.romTable ∧ 9 < (10#4).toNat ∧ 9 < (15#4).toNat := by decide

theorem test_meets_PtByindexHitsOrMisses :
    State.reset.rom = Config.romTable ∧ Config.romTable[0]? = some ⟨0x0570, .int8⟩ ∧
      Config.romTable[9]? = some ⟨0x2570, .float32⟩ ∧
      (∀ row ∈ Config.romTable, row.index ≠ 0x0571) ∧
      ∀ row ∈ Config.romTable, row.index ≠ 0xFFFF := by decide

theorem test_meets_LookupsAgree :
    State.reset.rom = Config.romTable ∧ (9#4).toNat ≤ 9 ∧
      ∃ r, AnswersOnly (exec (.ptByindex 0x2570) State.reset) State.reset r ∧
        r.found = some true ∧ r.paramId = some 9 :=
  ⟨rfl, by decide, _, answersOnly_respond _ _, by decide, by decide⟩

theorem test_meets_AddrPackPlacesFields :
    3#8 ∈ [3#8, 4#8, 6#8, 17#8, 18#8] ∧ 18#8 ∈ [3#8, 4#8, 6#8, 17#8, 18#8] ∧
      0#8 ∉ [3#8, 4#8, 6#8, 17#8, 18#8] ∧ 19#8 ∉ [3#8, 4#8, 6#8, 17#8, 18#8] := by decide

theorem test_meets_AddrPackIsInjective :
    AnswersOnly (exec (.addrPack 18 255 255) State.reset) State.reset
      { status := .ok, addr32 := some 0x1200FFFF } := answersOnly_respond _ _

theorem test_meets_AddrUnpackReportsFields :
    IsPackedAddress 0x1200FFFF ∧ IsPackedAddress 0x03000000 ∧ ¬IsPackedAddress 0x1201FD01 ∧
      ¬IsPackedAddress 0x0500FD01 := by
  simp only [IsPackedAddress]
  decide

theorem test_meets_PackAndUnpackAreInverse :
    18#8 ∈ [3#8, 4#8, 6#8, 17#8, 18#8] ∧
      ∃ r, AnswersOnly (exec (.addrUnpack 0x0600FD7F) State.reset) State.reset r ∧
        r.status = .ok ∧ r.cmd = some 6 ∧ r.hostId = some 253 ∧ r.motorId = some 127 :=
  ⟨by decide, _, answersOnly_respond _ _, by decide, by decide, by decide, by decide⟩

theorem test_meets_RotationOfPackedAddressIsShift :
    AnswersOnly (exec (.addrPack 18 253 1) State.reset) State.reset
        { status := .ok, addr32 := some 0x1200FD01 } ∧
      AnswersOnly (exec (.addrSer 0x1200FD01 .rot3) State.reset) State.reset
        { status := .ok, bytes4 := some #v[0x90, 0x07, 0xE8, 0x08] } :=
  ⟨answersOnly_respond _ _, answersOnly_respond _ _⟩

theorem test_meets_PayBuildWritesIndexBigEndian : 0#2 ≠ 3#2 ∧ 2#2 ≠ 3#2 := by decide

/-- The largest f32 below 2^31 is inside the domain (its fields are 157 and 2^23 - 1); -2^31 (158
and 0), an infinity and a NaN are outside. -/
theorem test_meets_ConversionTruncatesAndReduces :
    (((0x4EFFFFFF#32).extractLsb' 23 8).toNat = 157 ∧
        ((0x4EFFFFFF#32).extractLsb' 0 23).toNat = 2 ^ 23 - 1 ∧
        |⌊(2 ^ 23 + (2 ^ 23 - 1) : Rat) * 2 ^ 157 / 2 ^ 150⌋| < 2 ^ 31) ∧
      (((0xCF000000#32).extractLsb' 23 8).toNat = 158 ∧
        ((0xCF000000#32).extractLsb' 0 23).toNat = 0 ∧
        ¬|-⌊(2 ^ 23 + 0 : Rat) * 2 ^ 158 / 2 ^ 150⌋| < 2 ^ 31) ∧
      ((0x7F800000#32).extractLsb' 23 8).toNat = 255 ∧
      ((0x7FC00001#32).extractLsb' 23 8).toNat = 255 := by
  refine ⟨⟨by decide, by decide, ?_⟩, ⟨by decide, by decide, ?_⟩, by decide, by decide⟩
  · rw [show (2 ^ 23 + (2 ^ 23 - 1) : Rat) * 2 ^ 157 / 2 ^ 150 = ((2147483520 : Int) : Rat) by
      norm_num, Int.floor_intCast]
    decide
  · rw [show (2 ^ 23 + 0 : Rat) * 2 ^ 158 / 2 ^ 150 = ((2147483648 : Int) : Rat) by norm_num,
      Int.floor_intCast]
    decide

theorem test_meets_IntegerRoundTripIsConverted :
    let u : State := { State.reset with rom := [⟨0x0571, .int16⟩, ⟨0x0570, .int8⟩] }
    (⟨0x0571, .int16⟩ ∈ u.rom ∧ ∀ row ∈ u.rom, row.index = 0x0571 → row.type = .int16) ∧
      ⟨0x0570, .int8⟩ ∈ u.rom ∧ ∀ row ∈ u.rom, row.index = 0x0570 → row.type = .int8 := by
  decide

theorem test_meets_MixedWidthsReadBytesAsTheyLie :
    let u : State :=
      { State.reset with rom := [⟨0x0571, .int16⟩, ⟨0x0570, .int8⟩, ⟨0x1970, .float32⟩] }
    (⟨0x0571, .int16⟩ ∈ u.rom ∧ ∀ row ∈ u.rom, row.index = 0x0571 → row.type = .int16) ∧
      (⟨0x0570, .int8⟩ ∈ u.rom ∧ ∀ row ∈ u.rom, row.index = 0x0570 → row.type = .int8) ∧
      ⟨0x1970, .float32⟩ ∈ u.rom ∧ ∀ row ∈ u.rom, row.index = 0x1970 → row.type = .float32 := by
  decide

theorem test_meets_FrameReadCarriesIndexOnly : 1#2 ≠ 3#2 := by decide

theorem test_meets_FrameWriteCarriesBuiltPayload : 2#2 ≠ 3#2 ∧ (3#2 : BitVec 2) = 3#2 := by
  decide

theorem test_meets_BuiltFramesAreCommandFrames :
    AnswersOnly (exec (.frameEnable 253 1) State.reset) State.reset
        { status := .ok, addr32 := some 0x0300FD01, p := some #v[0, 0, 0, 0, 0, 0, 0, 0] } ∧
      AnswersOnly (exec (.frameDisable 253 1) State.reset) State.reset
        { status := .ok, addr32 := some 0x0400FD01, p := some #v[0, 0, 0, 0, 0, 0, 0, 0] } ∧
      AnswersOnly (exec (.frameReset 253 1) State.reset) State.reset
        { status := .ok, addr32 := some 0x0600FD01, p := some #v[1, 0, 0, 0, 0, 0, 0, 0] } ∧
      AnswersOnly (exec (.frameRead 0 255 0xBEEF) State.reset) State.reset
        { status := .ok, addr32 := some 0x110000FF,
          p := some #v[0xBE, 0xEF, 0, 0, 0, 0, 0, 0] } ∧
      AnswersOnly (exec (.frameWrite 253 127 0x1670 0 0xC0400000) State.reset) State.reset
        { status := .ok, addr32 := some 0x1200FD7F,
          p := some #v[0x16, 0x70, 0, 0, 0, 0, 0x40, 0xC0] } :=
  ⟨answersOnly_respond _ _, answersOnly_respond _ _, answersOnly_respond _ _,
    answersOnly_respond _ _, answersOnly_respond _ _⟩

theorem test_meets_WrappedFramesParse :
    (⟨17, 15, .plain, .native, .single⟩ : Params).Legal ∧
      (⟨65536, 17, .rot3, .serial, .double⟩ : Params).Legal ∧
      2#2 ≠ 3#2 := by
  simp only [Params.Legal]
  decide

theorem test_meets_DecFloatReadsValueBytes :
    ([] : List Byte).length < 8 ∧ ([0, 0, 0, 0, 0, 0, 0] : List Byte).length < 8 := by decide

theorem test_meets_DecRespTypesKnownParameter :
    let s : State :=
      { State.reset with rom := [⟨0x0571, .int16⟩, ⟨0x0570, .int8⟩, ⟨0x1970, .float32⟩] }
    (⟨(0x05#8 ++ 0x71#8 : Half), .int16⟩ ∈ s.rom ∧
        ∀ row ∈ s.rom, row.index = (0x05#8 ++ 0x71#8 : Half) → row.type = .int16) ∧
      (⟨(0x05#8 ++ 0x70#8 : Half), .int8⟩ ∈ s.rom ∧
        ∀ row ∈ s.rom, row.index = (0x05#8 ++ 0x70#8 : Half) → row.type = .int8) ∧
      ⟨(0x19#8 ++ 0x70#8 : Half), .float32⟩ ∈ s.rom ∧
        ∀ row ∈ s.rom, row.index = (0x19#8 ++ 0x70#8 : Half) → row.type = .float32 := by
  decide

theorem test_meets_DecRespSerReadsWindowAtSeven :
    let pre : List Byte := [0x41, 0x54, 0x12, 0, 0xFD, 1, 8]
    let window : List Byte := [0x19, 0x70, 0, 0, 0xF9, 0x0F, 0xC9, 0x3F]
    pre.length = 7 ∧ window.length = 8 ∧
      State.reset.params.serialMinLen ≤ (pre ++ window ++ []).length := by decide

theorem test_meets_ShortFramesAreIncomplete :
    (List.replicate 7 (0 : Byte)).length < 8 ∧
      (List.replicate 14 (0 : Byte)).length < State.reset.params.serialMinLen := by decide

theorem test_meets_UnknownIndexKeepsRawFields :
    (∀ row ∈ State.reset.rom, row.index ≠ (0x70#8 ++ 0x19#8 : Half)) ∧
      ([0, 0, 0, 0, 0, 0, 0] : List Byte).length = 7 ∧
      State.reset.params.serialMinLen
        ≤ (([0, 0, 0, 0, 0, 0, 0] : List Byte) ++ [0x70, 0x19, 0, 0, 0, 0, 0, 0]).length := by
  decide

theorem test_meets_CodecOperationsArePure :
    decode 65535 (.op (bits [0, 1, 1, 0])) = .ok .payReset ∧
      State.reset.rom = (host .serial []).rom ∧
      State.reset.params.serialMinLen = (host .serial []).params.serialMinLen := by decide

theorem test_meets_StepRunsDecodedInstruction :
    let s := (host .native []).place (.op (bits [0, 1, 1, 0]))
    s.requests = [.op (bits [0, 1, 1, 0])] ∧
      decode 65535 (.op (bits [0, 1, 1, 0])) = .ok .payReset ∧
      Instr.payReset.wellFormed 65535 := by decide

theorem test_meets_StepIdlesOrRefuses :
    State.reset.requests = [] ∧
      decode 65535 (.op (bits [0, 1, 1])) = .error .requestTooShort ∧
      decode 65535 (.op (bits [0, 0, 0, 0, 0, 1, 0])) = .error .requestTooShort ∧
      decode 65535 (.op (bits [0, 1, 1, 0, 0])) = .error .requestTooLong ∧
      decode 65535 (.frame 0x1201FD01 #v[0, 0, 0, 0, 0, 0, 0, 0]) = .error .middleFieldNotZero ∧
      decode 65535 (.frame 0x1300FD01 #v[0, 0, 0, 0, 0, 0, 0, 0]) = .error .unknownCommand ∧
      (State.reset.place (.op (bits [0, 1, 1]))).requests = [.op (bits [0, 1, 1])] ∧
      decode 17 (.op (bits ([1, 1, 1, 0] ++ [1, 0, 0, 1, 0] ++ List.replicate 144 0)))
        = .error .receivedTooLong := by decide +kernel

/-- A state with a request outstanding, a response at the port and a frame already handed over. -/
def busy : State :=
  { host .serial [] with
    requests := [.frame 0x0300FD01 #v[0, 0, 0, 0, 0, 0, 0, 0]]
    response := some { status := .tooShort, info := some 3 }
    transport :=
      { rxQueue := [], handed := [.native 0x1200FFFF #v[0, 0, 0, 0, 0, 0, 0, 0]],
        answers := [delivers []], exchanges := 0 } }

theorem test_meets_steps : ∃ t, step busy = .next t := ⟨_, rfl⟩

theorem test_meets_StepKeepsResponseFit : busy.ResponseFits := by
  intro r h
  obtain rfl : _ = r := by simpa [busy] using h
  simp only [Response.FieldsFit, Response.NoResult]
  decide

theorem test_meets_StepKeepsInvariant : busy.Inv ∧ State.reset.Inv := by
  simp only [State.Inv, Params.Legal]
  decide

theorem test_meets_StepKeepsHandedFramesLegal : busy.HandedLegal := by
  intro f h
  obtain rfl : f = _ := by simpa [busy] using h
  simp only [Handed.Legal, IsPackedAddress]
  decide

theorem test_meets_DecodeOfEncode :
    (Instr.decF32 (List.replicate 17 0)).wellFormed 17 ∧
    (Instr.decResp (List.replicate 65535 0)).wellFormed 65535 ∧
      (Instr.wireEnable 253 1 #v[0, 0, 0, 0, 0, 0, 0, 0]).wellFormed 65535 ∧
      (Instr.wireReset 253 1 #v[1, 0, 0, 0, 0, 0, 0, 0]).wellFormed 65535 ∧
      (Instr.wireRead 253 1 #v[0x19, 0x70, 0, 0, 0, 0, 0, 0]).wellFormed 65535 ∧
      (Instr.wireWrite 253 1 #v[0x05, 0x70, 0, 0, 2, 0, 0, 0]).wellFormed 65535 := by
  simp only [Instr.wellFormed, List.length_replicate]
  decide

/-- Also for `EncodeOfDecode`. -/
theorem test_meets_DecodedRequestsAreWellFormed :
    decode 65535 (.op (bits ([1, 1, 1, 1] ++ [0, 0, 0, 0, 0, 0, 0, 0, 0, 0, 0, 0, 0, 0, 0, 0])))
        = .ok (.decRespSer []) ∧
      decode 17 (.op (bits ([1, 1, 1, 1] ++ [1, 0, 0, 0, 1] ++ List.replicate 136 0)))
        = .ok (.decRespSer (List.replicate 17 0)) := by decide +kernel

/-- Also for `ReadFrameCompletes`, `SingleFrameCallsHandBuiltFrames` and
`WriteParameterHandsBuiltFrame`, on either binding. -/
theorem test_meets_DrainedFramesComplete :
    (host .native []).session.phase = .idle ∧ (host .serial []).session.phase = .idle ∧
      (host .native []).params.binding = .native ∧
      (host .serial []).params.binding = .serial ∧
      (let a : Answer := { delivers [[1]] with sendOk := false }
       (host .serial [a]).transport.nextAnswer = a ∧ a.sendOk = false) ∧
      let a : Answer := { delivers [[1]] with receiveOk := false }
      (host .serial [a]).transport.nextAnswer = a ∧ a.sendOk = true ∧ a.receiveOk = false := by
  decide

/-- Each reply of `ReadFrameCompletes`: none, one too short to have a raw value, one that is about a
row of the ROM, one that is not; and after a failed receive the frames of the window stay queued. -/
theorem test_meets_ReadFrameCompletes :
    let row : List Byte := [0x19, 0x70, 0, 0, 0, 0, 0x80, 0x3F]
    let other : List Byte := [0x70, 0x19, 0, 0, 0, 0, 0x80, 0x3F]
    (host .native [delivers []]).transport.nextAnswer.inWindow = [] ∧
      (∃ r, AnswersOnly (exec (.decResp [0x19]) (host .native [])) (host .native []) r ∧
        r.rawValue = none) ∧
      (∃ r, AnswersOnly (exec (.decResp row) (host .native [])) (host .native []) r ∧
        r.rawValue = some 0x3F800000 ∧ r.status = .ok) ∧
      (∃ r, AnswersOnly (exec (.decResp other) (host .native [])) (host .native []) r ∧
        r.rawValue = some 0x3F800000 ∧ r.status = .unknownParameter) ∧
      (after (exec (.wireRead 0 9 (parameterPayload 0x1970 0 0 0 0))
        (host .serial [{ delivers [row] with receiveOk := false }]))).map (·.transport.rxQueue)
          = some [row] :=
  ⟨by decide, ⟨_, answersOnly_respond _ _, by decide⟩,
    ⟨_, answersOnly_respond _ _, by decide, by decide⟩,
    ⟨_, answersOnly_respond _ _, by decide, by decide⟩, by decide⟩

theorem test_meets_ReadParameterTakesFloatView :
    let window : List Byte := [0x12, 0x34, 0, 0, 0, 0, 0x80, 0x3F]
    let pre : List Byte := [0x41, 0x54, 0x11, 0, 0xFD, 1, 8]
    let s := host .native [delivers [window]]
    let u := host .serial [delivers [pre ++ window]]
    s.session.phase = .idle ∧ s.transport.nextAnswer.sendOk = true ∧
      s.transport.nextAnswer.receiveOk = true ∧
      s.transport.nextAnswer.inWindow = [window] ∧ u.session.phase = .idle ∧
      u.transport.nextAnswer.sendOk = true ∧ u.transport.nextAnswer.receiveOk = true ∧
      pre.length = 7 ∧ u.params.serialMinLen ≤ (pre ++ window).length ∧
      u.transport.rxQueue ++ u.transport.nextAnswer.early ++ u.transport.nextAnswer.inWindow
        = [pre ++ window] := by decide

theorem test_meets_ReadParameterReturnsStaleValue :
    let short : List Byte := [0x19, 0x70, 0, 0, 0, 0, 0x40]
    (host .native [delivers []]).transport.nextAnswer.inWindow = [] ∧
      (host .native [delivers [short]]).transport.nextAnswer.inWindow = [short] ∧
      short.length < 8 ∧ (short ++ short).length < (host .serial []).params.serialMinLen ∧
      (let u := host .serial [delivers [short ++ short]]
       u.transport.rxQueue ++ u.transport.nextAnswer.early ++ u.transport.nextAnswer.inWindow
          = [short ++ short]) ∧
      let u := host .serial [delivers []]
      u.transport.rxQueue ++ u.transport.nextAnswer.early ++ u.transport.nextAnswer.inWindow
          = [] := by decide

theorem test_meets_FrameInsideExchangeFaults :
    ((host .native []).inPhase .sending).session.phase ≠ .idle ∧
      ((host .native []).inPhase .timedOut).session.phase ≠ .idle := by decide

theorem test_meets_SetVelocityHandsFiveFrames :
    (host .native (List.replicate 5 (delivers []))).transport.upcoming 5
        = [delivers [], delivers [], delivers [], delivers [], delivers []] ∧
      (delivers []).sendOk = true ∧ (delivers []).receiveOk = true := by decide

theorem test_meets_SetPositionHandsSevenFrames :
    let reply : Answer := delivers [[0x19, 0x70, 0, 0, 0, 0, 0x40, 0x40]]
    (host .native (reply :: List.replicate 6 (delivers []))).transport.upcoming 7
        = [reply, delivers [], delivers [], delivers [], delivers [], delivers [],
          delivers []] ∧
      reply.sendOk = true ∧ reply.receiveOk = true ∧
      (after (hostReadParameter Config.mechPos (host .native [reply]))).map (·.session.lastValue)
        = some 0x40400000 ∧
      f32Value 0x40400000 ≠ none ∧ f32Value 0xC0400000 ≠ none ∧
      f32Value 0x7FC00001 = none ∧ f32Value 0xFF800000 = none := by decide +kernel

/-- Failures of the first, the fifth and the seventh exchange, of `send` and of `try_receive`. What
the read leaves is finite, as above. -/
theorem test_meets_SequencesEndOnTransportFailure :
    let reply : Answer := delivers [[0x19, 0x70, 0, 0, 0, 0, 0x40, 0x40]]
    let bad : Answer := { delivers [] with sendOk := false }
    let lost : Answer := { delivers [] with receiveOk := false }
    let four := reply :: List.replicate 3 (delivers [])
    let six := reply :: List.replicate 5 (delivers [])
    (host .native [bad]).transport.upcoming 1 = [] ++ [bad] ∧
      (host .native (four ++ [lost])).transport.upcoming 5 = four ++ [lost] ∧ four.length = 4 ∧
      (host .native (six ++ [bad])).transport.upcoming 7 = six ++ [bad] ∧ six.length = 6 ∧
      (∀ a ∈ six, a.sendOk = true ∧ a.receiveOk = true) ∧
      ¬(bad.sendOk = true ∧ bad.receiveOk = true) ∧
      ¬(lost.sendOk = true ∧ lost.receiveOk = true) := by decide

/-- Behind the script stand the answers of the free oracle: the premises of the three sequences are
about them as well. -/
theorem test_upcoming_oracle :
    State.reset.transport.upcoming 2 = [Config.transportOracle 0, Config.transportOracle 1] ∧
      (host .native [delivers []]).transport.upcoming 2
        = [delivers [], Config.transportOracle 1] := ⟨rfl, rfl⟩

theorem test_meets_FoldRoundsToNearest :
    (foldFormat .single).round (2 ^ 127 - 1) = some (2 ^ 127) ∧ |(2 ^ 127 - 1 : Rat)| < 2 ^ 127 ∧
      FloatFormat.single.round (2 ^ 128) = none ∧ (foldFormat .single).Has 1 :=
  ⟨by decide +kernel, by decide +kernel, by decide +kernel, 1, 0, by decide, by decide,
    by norm_num⟩

/-- No move (V45-12), a move up (S4), a move down (V45-9), and a tie: a position of `π` and a target
of 0 are half a turn apart, and both ways the rest of the fold is rounded. -/
theorem test_meets_FoldRunsBothSteps :
    let r := (foldFormat .single).round
    let pi : Rat := 13176795 / 2 ^ 22
    (f32Value 0x00000000 = some 0 ∧ f32Value 0x3F800000 = some 1 ∧ r (1 - 0) = some 1 ∧
        ¬pi < 1 ∧ ¬(1 : Rat) < -pi ∧ r (0 - 1) = some (-1) ∧
        r (-1 / (2 * pi)) = some (-10680707 / 2 ^ 26) ∧
        |(-10680707 / 2 ^ 26 - (0 : Int) : Rat)| < 1 / 2 ∧ r ((0 : Int) * (2 * pi)) = some 0 ∧
        r (1 + 0) = some 1 ∧ FloatFormat.single.round 1 = some 1) ∧
      (r (-3 - 3) = some (-6) ∧ (-6 : Rat) < -pi ∧ r (-3 + 2 * pi) = some (6885339 / 2 ^ 21)) ∧
      (r (7 - 0) = some 7 ∧ pi < 7 ∧ r (7 - 2 * pi) = some (1503269 / 2 ^ 21)) ∧
      f32Value 0x40490FDB = some pi ∧ r (0 - pi) = some (-pi) ∧ ¬-pi < -pi ∧
      r (pi - 0) = some pi ∧ r (pi / (2 * pi)) = some (1 / 2) ∧
      |(1 / 2 - (0 : Int) : Rat)| = 1 / 2 ∧ |(1 / 2 - (1 : Int) : Rat)| = 1 / 2 ∧
      r ((1 : Int) * (2 * pi)) = some (2 * pi) ∧ r (0 + 2 * pi) = some (2 * pi) ∧
      FloatFormat.single.round (2 * pi) = some (2 * pi) := by decide +kernel

/-- The largest finite position against its opposite: the difference is beyond the finite numbers of
the single format, and there is a folded target all the same. -/
theorem test_fold_overflow :
    foldSteps .single (2 ^ 104 * (2 ^ 24 - 1)) (-2 ^ 104 * (2 ^ 24 - 1)) = none ∧
      (foldTarget .single 0x7F7FFFFF 0xFF7FFFFF).isSome ∧
      foldTarget .single 0x7F7FFFFF 0x7F800000 = none := by decide +kernel

theorem test_meets_FoldKeepsShortestPathLaw :
    f32Value 0x44800000 = some 1024 ∧ f32Value 0xC4800000 = some (-1024) ∧
      |(1024 : Rat)| ≤ 1024 ∧ |(-1024 : Rat)| ≤ 1024 := by decide +kernel

end Sys2Proof.Tests
end

section
/-! SUPPORT. The codec operations as a class of instructions: a request decodes to one of them, and
each answers from its operands, the ROM and `SERIAL_MIN_LEN` alone (00_scope.md R8). -/

namespace Sys2Proof

/-- The instructions a request on the port can name: all but the five command frames, which stand on
the wire (30_encoding.md R52, R56). -/
def Instr.isCodec : Instr → Bool
  | .wireEnable _ _ _ | .wireDisable _ _ _ | .wireReset _ _ _ | .wireRead _ _ _
  | .wireWrite _ _ _ => false
  | _ => true

/-- Each of the sixteen operation selects names a codec operation, whatever its operands are. -/
theorem decodeOperands_all_isCodec (rxMax : Nat) (op : BitVec 4) (bits : List Bool) :
    (decodeOperands rxMax op bits).all (fun x => x.1.isCodec) = true := by
  unfold decodeOperands
  split <;> simp [Option.all_bind, Function.comp_def, Instr.isCodec]

/-- A request that decodes is a codec operation. -/
theorem isCodec_of_decode_op {rxMax : Nat} {bits : List Bool} {i : Instr}
    (h : decode rxMax (.op bits) = .ok i) : i.isCodec = true := by
  rw [decode, decodeBits] at h
  split at h
  · cases h
  · rename_i op r _
    have hall := decodeOperands_all_isCodec rxMax op r
    split at h
    · cases h
    · rename_i j hj
      split at h
      · cases h
        simpa [hj] using hall
      · cases h
    · cases h

namespace Machine

/-- A codec operation ends with a response that is the same in any two states with one ROM and one
`SERIAL_MIN_LEN` (00_scope.md R8). -/
theorem exec_respond_congr {i : Instr} (hi : i.isCodec = true) {s u : State} (hrom : s.rom = u.rom)
    (hlen : s.params.serialMinLen = u.params.serialMinLen) :
    ∃ r, exec i s = respond r s ∧ exec i u = respond r u := by
  cases i with
  | ptByname k =>
    simp only [exec, execPtByname, hrom]
    split <;> exact ⟨_, rfl, rfl⟩
  | ptByindex index =>
    simp only [exec, execPtByindex, hrom]
    split <;> exact ⟨_, rfl, rfl⟩
  | decResp rx =>
    simp only [exec, execDecResp, interpretNative, hrom]
    exact ⟨_, rfl, rfl⟩
  | decRespSer rx =>
    simp only [exec, execDecRespSer, interpretSerial, hrom, hlen]
    exact ⟨_, rfl, rfl⟩
  | addrPack c h m =>
    simp only [exec, execAddrPack]
    split <;> exact ⟨_, rfl, rfl⟩
  | payBuild g index t v =>
    simp only [exec, execPayBuild]
    split
    · split <;> exact ⟨_, rfl, rfl⟩
    · exact ⟨_, rfl, rfl⟩
  | frameWrite h m index t v =>
    simp only [exec, execFrameWrite]
    split <;> exact ⟨_, rfl, rfl⟩
  | addrUnpack | addrSer | payReset | frameEnable | frameDisable | frameReset | frameRead
  | serWrap | decF32 => exact ⟨_, rfl, rfl⟩
  | wireEnable | wireDisable | wireReset | wireRead | wireWrite => cases hi

/-- Settles O34: a request decodes to a codec operation, and such an operation ends by `respond`
with one response in both states. -/
theorem codecOperationsArePure : Obligations.CodecOperationsArePure := by
  intro rxMax s u bits i hdec hrom hlen
  obtain ⟨r, hs, hu⟩ := exec_respond_congr (isCodec_of_decode_op hdec) hrom hlen
  rw [hs, hu]
  exact ⟨r, answersOnly_respond r s, answersOnly_respond r u⟩

end Machine

end Sys2Proof
end

section
/-! SUPPORT. What an instruction that goes on leaves alone: the ROM, the parameters, and the phase
the session has between steps (10_state.md R13, R15, 45_host_sequences.md R172). -/

namespace Sys2Proof.Machine

/-- A codec operation writes the response port alone; a command frame's exchange writes the host
alone, from Idle back to Idle. Either way these three stay. -/
theorem exec_keeps_rom_params_phase {i : Instr} {s t : State} (h : exec i s = .next t) :
    t.rom = s.rom ∧ t.params = s.params ∧ t.session.phase = s.session.phase := by
  rcases exec_eq_next h with ⟨r, rfl, -⟩ | ⟨hs, ⟨hrom, hparams, -⟩, ht, -⟩
  · exact ⟨rfl, rfl, rfl⟩
  · exact ⟨hrom, hparams, ht.trans hs.symm⟩

/-- Taking the outstanding request touches none of the three, so a step keeps what `exec` keeps. -/
theorem step_keeps_rom_params_phase {s t : State} (h : step s = .next t) :
    t.rom = s.rom ∧ t.params = s.params ∧ t.session.phase = s.session.phase := by
  rcases step_eq_next h with ⟨-, rfl⟩ | ⟨r, q, i, -, -, hexec⟩
  · exact ⟨rfl, rfl, rfl⟩
  · simpa using exec_keeps_rom_params_phase hexec

/-- Settles O39: each part of the invariant speaks of a field that a step leaves alone, the phase
included, for an exchange ends in the step that began it. -/
theorem stepKeepsInvariant : Obligations.StepKeepsInvariant := by
  intro s t ⟨hrows, hlegal, hidle⟩ hstep
  obtain ⟨hrom, hparams, hphase⟩ := step_keeps_rom_params_phase hstep
  exact ⟨hrom.trans hrows, hparams ▸ hlegal, hphase.trans hidle⟩

/-- Settles O38. -/
theorem stepKeepsRomAndParameters : Obligations.StepKeepsRomAndParameters := by
  intro s t hstep
  obtain ⟨hrom, hparams, -⟩ := step_keeps_rom_params_phase hstep
  exact ⟨hrom, hparams⟩

/-- The defaults the model takes for the OPEN parameters lie in their legal ranges. -/
theorem reset_params_legal : State.reset.params.Legal := by
  unfold Params.Legal
  decide

/-- Settles O41: at reset the parameters are legal, and with no response and no frame handed over
the other two invariants ask nothing. -/
theorem resetMeetsInvariants : Obligations.ResetMeetsInvariants := by
  refine ⟨⟨rfl, reset_params_legal, rfl⟩, ?_, ?_⟩
  · intro r hresponse
    cases hresponse
  · intro f hhanded
    cases hhanded

/-- Settles O43: each clause is a field of `State.reset`, `State.blockReset` or
`State.makeSession`. -/
theorem resetLeavesBlockReady : Obligations.ResetLeavesBlockReady := by
  refine ⟨⟨rfl, rfl, rfl, rfl, rfl⟩, fun s => ⟨⟨⟨rfl, rfl, rfl⟩, rfl, rfl, rfl⟩, ?_⟩⟩
  intro h m
  exact ⟨⟨rfl, rfl⟩, rfl⟩

end Sys2Proof.Machine
end

section
/-! SUPPORT. What a request's bits have to be to decode (30_encoding.md R52, R53). -/

namespace Sys2Proof

/-- A request that decodes is an op and exactly that op's operands, and the instruction they name is
well formed. -/
theorem decodeBits_eq_ok {rxMax : Nat} {bits : List Bool} {i : Instr}
    (h : decodeBits rxMax bits = .ok i) :
    ∃ op r, takeField 4 bits = some (op, r) ∧ decodeOperands rxMax op r = some (i, []) ∧
      i.wellFormed rxMax = true := by
  unfold decodeBits at h
  split at h
  · cases h
  · rename_i op r hop
    split at h
    · cases h
    · rename_i j hoperands
      split at h
      · rename_i hwf
        cases h
        exact ⟨op, r, hop, hoperands, hwf⟩
      · cases h
    · cases h

/-- Settles O46: the decoder checks the length of an `rx` before it accepts a request. -/
theorem decodedRequestsAreWellFormed : Obligations.DecodedRequestsAreWellFormed := by
  intro rxMax bits i hdecode
  obtain ⟨op, r, -, -, hwf⟩ := decodeBits_eq_ok hdecode
  exact hwf

end Sys2Proof
end

section
/-! SUPPORT. A payload that carries a value, read back (20_memory.md R31, R36): the writer's type
fixes the word that stands in bytes 4 to 7, the reader's type how much of that word is taken. -/

namespace Sys2Proof.Machine

/-- The low two bytes of a word, behind two zero bytes, are a half word zero-extended. -/
theorem zero_append_byteOf_half (w : Half) :
    (0#8 ++ 0#8 ++ byteOf w 1 ++ byteOf w 0 : Word32) = w.setWidth 32 := by
  have hw := w.isLt
  apply BitVec.eq_of_toNat_eq
  simp only [toNat_append_add, byteOf_toNat, BitVec.toNat_setWidth, BitVec.toNat_ofNat]
  omega

/-- A byte behind three zero bytes is that byte zero-extended. -/
theorem zero_append_byte (b : Byte) : (0#8 ++ 0#8 ++ 0#8 ++ b : Word32) = b.setWidth 32 := by
  have hb := b.isLt
  apply BitVec.eq_of_toNat_eq
  simp only [toNat_append_add, BitVec.toNat_setWidth, BitVec.toNat_ofNat]
  omega

/-- The word in bytes 4 to 7 of a payload that carries a value, by the type it was written with
(20_memory.md R31). -/
def writtenWord (value : F32) : ParamType → Word32
  | .float32 => value
  | .int16 => (cvt 16 value).setWidth 32
  | .int8 => (cvt 8 value).setWidth 32

/-- The window of a payload that carries a parameter gives its index back. -/
theorem extract_parameterPayload (index : Half) (v0 v1 v2 v3 : Byte) :
    extract (parameterPayload index v0 v1 v2 v3).toList 0
      = some ⟨index, (v3 ++ v2 ++ v1 ++ v0 : Word32), #v[0#8, 0#8]⟩ := by
  have hwindow := extract_window [] (byteOf index 1) (byteOf index 0) 0#8 0#8 v0 v1 v2 v3 []
  rwa [byteOf_append_half] at hwindow

/-- A payload built for a value is read as its index, the word written and two zero bytes. -/
theorem extract_valuePayload (index : Half) (t : ParamType) (value : F32) :
    extract (valuePayload index t value).toList 0
      = some ⟨index, writtenWord value t, #v[0#8, 0#8]⟩ := by
  cases t with
  | float32 => rw [valuePayload, extract_parameterPayload, byteOf_append, writtenWord]
  | int16 => rw [valuePayload, extract_parameterPayload, zero_append_byteOf_half, writtenWord]
  | int8 => rw [valuePayload, extract_parameterPayload, zero_append_byte, writtenWord]

/-- PAY.BUILD of a parameter answers with the payload of its type (42_payload.md R100). -/
theorem payBuild_answers (s : State) (index : Half) (t : ParamType) (value : F32) :
    AnswersOnly (exec (.payBuild true index (paramTypeCode t) value) s) s
      { status := .ok, p := some (valuePayload index t value) } := by
  simp only [exec, execPayBuild, paramTypeOf_code, if_true]
  exact answersOnly_respond _ s

/-- DEC.F32 of a built payload answers with the word written, whatever its type
(44_decode.md R141). -/
theorem decF32_valuePayload (u : State) (index : Half) (t : ParamType) (value : F32) :
    AnswersOnly (exec (.decF32 (valuePayload index t value).toList) u) u
      { status := .ok, fval := some (writtenWord value t) } := by
  have hlen : ¬ (valuePayload index t value).toList.length < Config.nativeMinLen := by
    simp [Config.nativeMinLen]
  simp only [exec, execDecF32, decodeFloat, if_neg hlen, extract_valuePayload]
  exact answersOnly_respond _ u

/-- DEC.RESP of a built payload reads the word written with the type the ROM gives the index, not
with the type it was written with (44_decode.md R145, R150). -/
theorem decResp_valuePayload {u : State} {index : Half} {read : ParamType}
    (hrom : ⟨index, read⟩ ∈ u.rom ∧ ∀ row ∈ u.rom, row.index = index → row.type = read)
    (written : ParamType) (value : F32) :
    AnswersOnly (exec (.decResp (valuePayload index written value).toList) u) u
      (typedValue read (writtenWord value written)
        (frameResponse .ok none ⟨index, writtenWord value written, #v[0#8, 0#8]⟩)) := by
  have hlen : ¬ (valuePayload index written value).toList.length < Config.nativeMinLen := by
    simp [Config.nativeMinLen]
  simp only [exec, execDecResp, interpretNative, interpret, if_neg hlen, extract_valuePayload]
  rw [interpretFrame_known (f := ⟨index, _, _⟩) hrom.1 hrom.2]
  exact answersOnly_respond _ u

/-- What a reader of type Int16 takes of a word: its low 16 bits (44_decode.md R150). -/
theorem typedValue_int16_ival (raw : Word32) (r : Response) :
    (typedValue .int16 raw r).ival = some (raw.setWidth 16) := rfl

/-- What a reader of type Int8 takes of a word: its low byte, zero-extended (44_decode.md R150). -/
theorem typedValue_int8_ival (raw : Word32) (r : Response) :
    (typedValue .int8 raw r).ival = some ((raw.setWidth 8).setWidth 16) := rfl

/-- Settles O20: for each pair of types, the word the writer left in the payload under the view the
reader's type takes of a word. -/
theorem mixedWidthsReadBytesAsTheyLie : Obligations.MixedWidthsReadBytesAsTheyLie := by
  intro s u index value typed
  refine ⟨valuePayload index .float32 value, valuePayload index .int16 value,
    valuePayload index .int8 value,
    ⟨payBuild_answers s index .float32 value, payBuild_answers s index .int16 value,
      payBuild_answers s index .int8 value⟩,
    ⟨decF32_valuePayload u index .int16 value, decF32_valuePayload u index .int8 value⟩, ?_, ?_, ?_⟩
  · intro hrom
    exact ⟨_, _, decResp_valuePayload hrom .int16 value, rfl,
      decResp_valuePayload hrom .int8 value, rfl⟩
  · intro hrom
    refine ⟨_, _, decResp_valuePayload hrom .float32 value, ?_,
      decResp_valuePayload hrom .int8 value, ?_⟩
    · rw [typedValue_int16_ival, writtenWord,
        BitVec.setWidth_eq_extractLsb' (show 16 ≤ 32 by decide)]
    · rw [typedValue_int16_ival, writtenWord,
        BitVec.setWidth_setWidth_of_le _ (show 16 ≤ 32 by decide)]
  · intro hrom
    refine ⟨_, _, decResp_valuePayload hrom .float32 value, ?_,
      decResp_valuePayload hrom .int16 value, ?_⟩
    · rw [typedValue_int8_ival, writtenWord,
        BitVec.setWidth_eq_extractLsb' (show 8 ≤ 32 by decide)]
    · rw [typedValue_int8_ival, writtenWord,
        BitVec.setWidth_setWidth_of_le _ (show 8 ≤ 32 by decide),
        BitVec.setWidth_eq_extractLsb' (show 8 ≤ 16 by decide)]

end Sys2Proof.Machine
end

section
/-! SUPPORT. The request port under a step: the outstanding request is taken, its instruction runs,
and no instruction touches the port (20_memory.md R40). -/

namespace Sys2Proof.Machine

/-- An instruction that goes on leaves the request port alone: it wrote the response port or the
host. -/
theorem exec_keeps_requests {i : Instr} {s t : State} (h : exec i s = .next t) :
    t.requests = s.requests := by
  rcases exec_eq_next h with ⟨r, rfl, -⟩ | ⟨-, ⟨-, -, hrequests, -⟩, -⟩
  · exact State.withResponse_requests s (some r)
  · exact hrequests

/-- Settles O37: an idle step has no request to take, and any other runs its instruction on the
state whose port holds the tail. -/
theorem stepTakesOneRequest : Obligations.StepTakesOneRequest := by
  intro s t hstep
  rcases step_eq_next hstep with ⟨hempty, rfl⟩ | ⟨r, q, i, hrequests, -, hexec⟩
  · rw [hempty, List.tail_nil]
  · rw [exec_keeps_requests hexec, State.withRequests_requests, hrequests, List.tail_cons]

/-- A port item that decodes is run, on the state with the request taken. -/
theorem step_of_decode {s : State} {r : Request} {q : List Request} {i : Instr}
    (hrequests : s.requests = r :: q) (hdecode : decode s.params.rxMax r = .ok i) :
    step s = exec i (s.withRequests q) := by
  simp only [step, State.fetch_cons s hrequests, hdecode]

/-- Settles O35: a step runs whatever the port item decodes to, so the instruction's well-formedness
is not needed. -/
theorem stepRunsDecodedInstruction : Obligations.StepRunsDecodedInstruction := by
  intro s r q i hrequests hdecode _
  exact step_of_decode hrequests hdecode

end Sys2Proof.Machine
end

section
/-! SUPPORT. The frames a host hands to its transport: whichever binding, the packed address stands
in them (43_frames.md R120, R132). -/

namespace Sys2Proof.Machine

/-- The envelope around a packed address is a serial frame: its four address bytes are the word of
the strategy, the address itself or its rotation (43_frames.md R132). -/
theorem wrap_isSerialFrame {a : Word32} (ha : IsPackedAddress a) (strat : Strategy) (p : Payload) :
    IsSerialFrame (wrap a strat p) := by
  have hword := toBe4_append (strategyWord a strat)
  refine ⟨⟨rfl, rfl, rfl, rfl, rfl⟩, a, ha, ?_⟩
  cases strat with
  | plain => exact .inl hword
  | rot3 => exact .inr (hword.trans (rotl3_eq a))

/-- A frame with a packed address is legal in the form of the binding. -/
theorem handedForm_legal {a : Word32} (ha : IsPackedAddress a) (s : State) (p : Payload) :
    (s.handedForm a p).Legal := by
  unfold State.handedForm
  split
  · exact ha
  · exact wrap_isSerialFrame ha _ p

/-- An instruction hands over nothing, or one more legal frame. -/
theorem exec_keeps_handedLegal {i : Instr} {s t : State} (hs : s.HandedLegal)
    (h : exec i s = .next t) : t.HandedLegal := by
  rcases exec_eq_next h with ⟨r, rfl, -⟩ | ⟨-, -, -, a, p, ha, hhanded⟩
  · exact hs
  · intro f hf
    rw [hhanded, List.mem_append, List.mem_singleton] at hf
    rcases hf with hold | rfl
    · exact hs f hold
    · exact handedForm_legal ha s p

/-- Settles O40: taking the request leaves the record of handed frames, and the instruction adds at
most one legal frame to it. -/
theorem stepKeepsHandedFramesLegal : Obligations.StepKeepsHandedFramesLegal := by
  intro s t hs hstep
  rcases step_eq_next hstep with ⟨-, rfl⟩ | ⟨r, q, i, -, -, hexec⟩
  · exact hs
  · exact exec_keeps_handedLegal (s := s.withRequests q) hs hexec

end Sys2Proof.Machine
end

section
/-! SUPPORT. Fields taken off a bit string, said both ways: a field was taken exactly where the
string begins with the field's bits (30_encoding.md R53). -/

namespace Sys2Proof

/-- A word is taken off exactly the strings that begin with its bits. -/
theorem takeField_eq_some_iff {n : Nat} {bits : List Bool} {w : BitVec n} {rest : List Bool} :
    takeField n bits = some (w, rest) ↔ bits = wordBits w ++ rest :=
  ⟨takeField_eq_some, fun h => h ▸ takeField_wordBits w rest⟩

/-- A received byte sequence is taken off exactly the strings that begin with its bits, where its
length fits the length field. -/
theorem takeRx_eq_some_iff {rxMax : Nat} {bits : List Bool} {rx : List Byte} {rest : List Bool} :
    takeRx rxMax bits = some (rx, rest) ↔
      bits = rxBits rxMax rx ++ rest ∧ rx.length < 2 ^ rxLenBits rxMax := by
  constructor
  · intro h
    refine ⟨takeRx_eq_some h, ?_⟩
    unfold takeRx at h
    split at h
    · cases h
    · rw [(takeBytes_eq_some h).2]
      exact BitVec.isLt _
  · rintro ⟨rfl, hlt⟩
    simp [takeRx, rxBits, List.append_assoc, takeField_natBits, Nat.mod_eq_of_lt hlt,
      takeBytes_flatMap]

/-- The bit of `has_param` is the bit of a one-bit word. -/
theorem flagBits_beq_one (g : BitVec 1) : flagBits (g == 1#1) = wordBits g := by
  revert g
  decide

/-- The bits of a payload, byte by byte. -/
theorem payloadBits_bytes (p0 p1 p2 p3 p4 p5 p6 p7 : Byte) :
    payloadBits #v[p0, p1, p2, p3, p4, p5, p6, p7]
      = wordBits p0 ++ (wordBits p1 ++ (wordBits p2 ++ (wordBits p3 ++ (wordBits p4
        ++ (wordBits p5 ++ (wordBits p6 ++ wordBits p7)))))) := by
  simp [payloadBits]

/-- A payload is its eight bytes. -/
theorem Payload.exists_bytes (p : Payload) :
    ∃ p0 p1 p2 p3 p4 p5 p6 p7, p = #v[p0, p1, p2, p3, p4, p5, p6, p7] := by
  refine ⟨p[0], p[1], p[2], p[3], p[4], p[5], p[6], p[7], Vector.ext ?_⟩
  intro k hk
  interval_cases k <;> rfl

end Sys2Proof
end

section
/-! SUPPORT. Decoder and encoder of requests against each other (30_encoding.md R52, R53). -/

namespace Sys2Proof

/-- A well-formed instruction whose operands are read to the last bit is what its request decodes
to. -/
theorem decode_of_operands {rxMax op : Nat} {operands : List Bool} {i : Instr}
    (hwf : i.wellFormed rxMax)
    (h : decodeOperands rxMax (BitVec.ofNat 4 op) operands = some (i, [])) :
    decode rxMax (.op (natBits 4 op ++ operands)) = .ok i := by
  simp only [decode, decodeBits, takeField_natBits, h, if_pos hwf]

/-- The request of a well-formed codec operation decodes to it. -/
theorem decode_encode_codec {rxMax : Nat} {i : Instr} (hi : i.isCodec) (hwf : i.wellFormed rxMax) :
    decode rxMax (encode rxMax i) = .ok i := by
  cases i with
  | payReset => exact decode_of_operands (operands := []) hwf rfl
  | decF32 rx | decResp rx | decRespSer rx =>
    have hrx := takeRx_rxBits rx (of_decide_eq_true hwf) []
    rw [List.append_nil] at hrx
    exact decode_of_operands hwf (by simp [decodeOperands, hrx])
  | serWrap a s p =>
    obtain ⟨p0, p1, p2, p3, p4, p5, p6, p7, rfl⟩ := p.exists_bytes
    exact decode_of_operands hwf (by simp [decodeOperands, payloadBits_bytes])
  | payBuild g index t v =>
    obtain ⟨b, rfl⟩ : ∃ b : BitVec 1, (b == 1#1) = g := ⟨BitVec.ofBool g, by cases g <;> rfl⟩
    exact decode_of_operands hwf (by simp [decodeOperands, flagBits_beq_one])
  | ptByname | ptByindex | addrPack | addrUnpack | addrSer | frameEnable | frameDisable
  | frameReset | frameRead | frameWrite =>
    exact decode_of_operands hwf (by simp [decodeOperands])
  | wireEnable | wireDisable | wireReset | wireRead | wireWrite => cases hi

/-- Operands read to the last bit are the operand bits of the instruction they name. In each of the
sixteen cases of the op the decoder's fields, put one behind the other, are the encoder's. -/
theorem encode_of_decodeOperands {rxMax : Nat} {op : BitVec 4} {r : List Bool} {i : Instr}
    (h : decodeOperands rxMax op r = some (i, [])) :
    encode rxMax i = .op (natBits 4 op.toNat ++ r) := by
  have hop := op.isLt
  revert h
  interval_cases hselect : op.toNat
  all_goals
    simp only [decodeOperands, hselect, Option.bind_eq_bind, Option.bind_eq_some_iff,
      Option.some.injEq, Prod.exists, Prod.mk.injEq, takeField_eq_some_iff, takeRx_eq_some_iff,
      forall_exists_index, and_imp]
    intros
    subst_vars
    simp only [encode, flagBits_beq_one, Strategy.bit_ofBit, payloadBits_bytes, List.append_nil]

/-- A request that decodes is the request of its instruction. -/
theorem encode_of_decodeBits {rxMax : Nat} {bits : List Bool} {i : Instr}
    (h : decodeBits rxMax bits = .ok i) : encode rxMax i = .op bits := by
  obtain ⟨op, r, hop, hoperands, -⟩ := decodeBits_eq_ok h
  rw [encode_of_decodeOperands hoperands, takeField_eq_some hop, wordBits]

end Sys2Proof
end

section
/-! SUPPORT. Decoder and encoder of wire words against each other (30_encoding.md R50, R56). -/

namespace Sys2Proof

/-- The four fields of an address word (30_encoding.md R50). -/
theorem address_fields (c mid h m : Byte) :
    (c ++ mid ++ h ++ m : Word32).extractLsb' 24 8 = c ∧
      (c ++ mid ++ h ++ m : Word32).extractLsb' 16 8 = mid ∧
      (c ++ mid ++ h ++ m : Word32).extractLsb' 8 8 = h ∧
      (c ++ mid ++ h ++ m : Word32).extractLsb' 0 8 = m := by
  have hc := c.isLt
  have hmid := mid.isLt
  have hh := h.isLt
  have hm := m.isLt
  refine ⟨?_, ?_, ?_, ?_⟩ <;> apply BitVec.eq_of_toNat_eq <;>
    simp only [toNat_field, toNat_append_add] <;> omega

/-- A wire word with a zero middle field is the frame that its other fields make. -/
theorem frameWords_fields {a : Word32} {p : Payload} {code : Byte}
    (hmid : a.extractLsb' 16 8 = 0#8) (hcode : (a.extractLsb' 24 8).toNat = code.toNat) :
    frameWords code (a.extractLsb' 8 8) (a.extractLsb' 0 8) p = .frame a p := by
  rw [frameWords, ← BitVec.eq_of_toNat_eq hcode, ← hmid]
  exact congrArg (Request.frame · p) (Machine.byteOf_append a)

/-- A wire word decodes to the command frame that encodes to it, and to no other instruction. -/
theorem decodeFrame_eq_ok_iff (rxMax : Nat) {a : Word32} {p : Payload} {i : Instr} :
    decodeFrame a p = .ok i ↔ encode rxMax i = .frame a p := by
  constructor
  · intro h
    simp only [decodeFrame] at h
    split at h
    · rename_i hmid
      split at h
      case h_6 => cases h
      all_goals
        rename_i hcode
        cases h
        exact frameWords_fields hmid hcode
    · cases h
  · intro h
    cases i with
    | wireEnable host motor q | wireDisable host motor q | wireReset host motor q
    | wireRead host motor q | wireWrite host motor q =>
      injection h with ha hp
      subst ha hp
      simp only [decodeFrame, address_fields]
      rfl
    | _ => cases h

/-- The words of a well-formed instruction decode to it, whichever port they stand at. -/
theorem decode_encode {rxMax : Nat} {i : Instr} (hwf : i.wellFormed rxMax) :
    decode rxMax (encode rxMax i) = .ok i := by
  cases i with
  | wireEnable | wireDisable | wireReset | wireRead | wireWrite =>
    exact (decodeFrame_eq_ok_iff rxMax).2 rfl
  | _ => exact decode_encode_codec rfl hwf

/-- Settles O44. -/
theorem decodeOfEncode : Obligations.DecodeOfEncode := by
  intro rxMax i hwf
  exact decode_encode hwf

/-- Settles O45: at either port, the fields the decoder read, written out again, are the item. -/
theorem encodeOfDecode : Obligations.EncodeOfDecode := by
  intro rxMax r i h
  cases r with
  | op bits => exact encode_of_decodeBits h
  | frame a p => exact (decodeFrame_eq_ok_iff rxMax).1 h

end Sys2Proof
end

section
/-! SUPPORT. What the FRAME operations answer, as wire words (43_frames.md R120). -/

namespace Sys2Proof.Machine

/-- The address and the payload a FRAME operation answers decode to the instruction `mk` whose wire
words they are, and that one is well formed where it is with the operation's payload. -/
theorem respondFrame_decodes {rxMax : Nat} {c h m : Byte} {q p : Payload} {a : Word32} {s : State}
    {r : Response} {mk : Payload → Instr} (hwords : ∀ p, encode rxMax (mk p) = frameWords c h m p)
    (hwf : (mk q).wellFormed rxMax) (haddr : r.addr32 = some a) (hp : r.p = some p)
    (hr : AnswersOnly (respondFrame c h m q s) s r) :
    decode rxMax (.frame a p) = .ok (mk p) ∧ (mk p).wellFormed rxMax := by
  obtain rfl := answersOnly_respond_iff.1 hr
  cases haddr
  cases hp
  refine ⟨(decodeFrame_eq_ok_iff rxMax).2 ?_, hwf⟩
  rw [hwords, frameWords, packAddress_eq]

/-- The payload with an index and no value has the shape READ carries (30_encoding.md R57). -/
theorem parameterPayload_isIndexOnly (index : Half) :
    (parameterPayload index 0#8 0#8 0#8 0#8).isIndexOnly = true := rfl

/-- The payload with a value has the shape WRITE carries (42_payload.md R102). -/
theorem valuePayload_isParameter (index : Half) (t : ParamType) (value : F32) :
    (valuePayload index t value).isParameter = true := by
  cases t <;> rfl

/-- An answer of FRAME.WRITE that has an address is the frame of one of the three types
(43_frames.md R125). -/
theorem frameWrite_answer {h m : Byte} {index : Half} {t : BitVec 2} {value : F32} {s : State}
    {r : Response} {a : Word32} (haddr : r.addr32 = some a)
    (hr : AnswersOnly (exec (.frameWrite h m index t value) s) s r) :
    ∃ ty, AnswersOnly (respondFrame Config.writeCode h m (valuePayload index ty value) s) s r := by
  simp only [exec, execFrameWrite] at hr
  split at hr
  · obtain rfl := answersOnly_respond_iff.1 hr
    cases haddr
  · exact ⟨_, hr⟩

/-- Settles O24: the answered words are the command's wire words, which decode to it, and the
payload has the shape of its row. -/
theorem builtFramesAreCommandFrames : Obligations.BuiltFramesAreCommandFrames := by
  intro rxMax s h m index t value r a p haddr hp
  refine ⟨respondFrame_decodes (fun _ => rfl) rfl haddr hp,
    respondFrame_decodes (fun _ => rfl) rfl haddr hp,
    respondFrame_decodes (fun _ => rfl) rfl haddr hp,
    respondFrame_decodes (fun _ => rfl) (parameterPayload_isIndexOnly index) haddr hp, ?_⟩
  intro hr
  obtain ⟨ty, hr⟩ := frameWrite_answer haddr hr
  exact respondFrame_decodes (fun _ => rfl) (valuePayload_isParameter index ty value) haddr hp hr

/-- Settles O16: code 3 is no type, so both operations end as for an illegal operand. -/
theorem reservedTypeIsIllegal : Obligations.ReservedTypeIsIllegal := by
  intro s h m index value
  have hreserved := (paramTypeOf_eq_none_iff 3#2).2 rfl
  simp only [exec, execPayBuild, execFrameWrite, hreserved]
  exact ⟨answersOnly_respond _ s, answersOnly_respond _ s⟩

/-- Settles O47: the eight words are literals, so the decoder is run on them. -/
theorem tableWordsDecode : Obligations.TableWordsDecode := by
  unfold Obligations.TableWordsDecode
  decide

end Sys2Proof.Machine
end

section
/-! SUPPORT. The Parameter Table (40_parameter_table.md): the ROM's two reads against each other, by
row number and by index, and what the two lookups answer from them. -/

namespace Sys2Proof.Machine

/-! ### The two reads of the ROM (20_memory.md R34) -/

/-- Where no two rows share an index, a lookup gives the row the index stands in. -/
theorem romLookup_eq_some_iff {rom : List ParamSpec} (hnodup : (rom.map (·.index)).Nodup)
    {i : Half} {r : Nat} {t : ParamType} :
    romLookup rom i = some (r, t) ↔ rom[r]? = some ⟨i, t⟩ := by
  refine ⟨fun h => (romFind_eq_some h).2, fun h => ?_⟩
  obtain ⟨hlt, -⟩ := List.getElem?_eq_some_iff.1 h
  rcases hfind : romLookup rom i with _ | ⟨r', t'⟩
  · exact absurd rfl ((romFind_eq_none_iff i 0 rom).1 hfind _ (List.mem_of_getElem? h))
  · have hfound : rom[r']? = some ⟨i, t'⟩ := (romFind_eq_some hfind).2
    have hsame : r = r' := (List.getElem?_inj (by simpa using hlt) hnodup).1 (by simp [h, hfound])
    subst hsame
    cases h.symm.trans hfound
    rfl

/-- The ten indices are pairwise different (10_state.md R15). -/
theorem romTable_indices_nodup : (Config.romTable.map (·.index)).Nodup := by decide

theorem romTable_length : Config.romTable.length = 10 := rfl

/-- The check of the row number never hides a row: there are ten of them. -/
theorem romRow_romTable (k : BitVec 4) :
    romRow Config.romTable k = Config.romTable[k.toNat]? := by
  unfold romRow
  split
  · exact (List.getElem?_eq_none (by rw [romTable_length]; omega)).symm
  · rfl

/-- Row numbers 0 to 9 have a row. -/
theorem exists_romRow_romTable {k : BitVec 4} (hk : k.toNat ≤ 9) :
    ∃ i t, romRow Config.romTable k = some ⟨i, t⟩ := by
  rw [romRow_romTable, List.getElem?_eq_getElem (by rw [romTable_length]; omega)]
  exact ⟨_, _, rfl⟩

/-- The two reads are inverse to each other (40_parameter_table.md R83). -/
theorem romRow_eq_some_iff_romLookup {k : BitVec 4} {i : Half} {t : ParamType} :
    romRow Config.romTable k = some ⟨i, t⟩ ↔
      romLookup Config.romTable i = some (k.toNat, t) := by
  rw [romRow_romTable, romLookup_eq_some_iff romTable_indices_nodup]

/-- A row number that a lookup gives fits the four bits of `param_id`. -/
theorem toNat_ofNat_of_romLookup {i : Half} {r : Nat} {t : ParamType}
    (h : romLookup Config.romTable i = some (r, t)) : (BitVec.ofNat 4 r).toNat = r := by
  have hrow := (romLookup_eq_some_iff romTable_indices_nodup).1 h
  obtain ⟨hlt, -⟩ := List.getElem?_eq_some_iff.1 hrow
  rw [romTable_length] at hlt
  rw [BitVec.toNat_ofNat]
  omega

/-! ### What the two lookups answer (40_parameter_table.md R80 to R82) -/

variable {s : State}

/-- PT.BYNAME of a name that has a row. -/
theorem ptByname_answers_row {k : BitVec 4} {i : Half} {t : ParamType}
    (h : romRow s.rom k = some ⟨i, t⟩) :
    AnswersOnly (exec (.ptByname k) s) s
      { status := .ok, index := some i, ptype := some t, width := some (paramWidth t) } := by
  simp only [exec, execPtByname, h]
  exact answersOnly_respond _ s

/-- PT.BYNAME of a reserved name, whatever the ROM holds. -/
theorem ptByname_answers_reserved {k : BitVec 4} (h : 9 < k.toNat) :
    AnswersOnly (exec (.ptByname k) s) s (illegalOperand k.toNat) := by
  simp only [exec, execPtByname, romRow, if_pos h]
  exact answersOnly_respond _ s

/-- PT.BYINDEX of an index that some row has. -/
theorem ptByindex_answers_found {i : Half} {r : Nat} {t : ParamType}
    (h : romLookup s.rom i = some (r, t)) :
    AnswersOnly (exec (.ptByindex i) s) s (foundRow r i t) := by
  simp only [exec, execPtByindex, h]
  exact answersOnly_respond _ s

/-- PT.BYINDEX of an index that no row has. -/
theorem ptByindex_answers_miss {i : Half} (h : romLookup s.rom i = none) :
    AnswersOnly (exec (.ptByindex i) s) s { status := .ok, found := some false } := by
  simp only [exec, execPtByindex, h]
  exact answersOnly_respond _ s

/-- An answer of PT.BYINDEX with `found = 1` is that of a row the lookup gave. -/
theorem ptByindex_found_inv {i : Half} {r : Response}
    (hr : AnswersOnly (exec (.ptByindex i) s) s r) (hfound : r.found = some true) :
    ∃ n t, romLookup s.rom i = some (n, t) ∧ r = foundRow n i t := by
  rcases hlookup : romLookup s.rom i with _ | ⟨n, t⟩
  · obtain rfl := hr.unique (ptByindex_answers_miss hlookup)
    cases hfound
  · exact ⟨n, t, rfl, hr.unique (ptByindex_answers_found hlookup)⟩

end Sys2Proof.Machine
end

section
/-! SUPPORT. The statements about the Parameter Table (40_parameter_table.md R80 to R83). -/

namespace Sys2Proof.Machine

/-- Settles O1: the ten rows of the statement are read off the ROM, and a row number above 9 has no
cell. -/
theorem ptBynameAnswersRow : Obligations.PtBynameAnswersRow := by
  intro s hrom
  refine ⟨fun row hrow => ?_, fun k hk => ptByname_answers_reserved hk⟩
  have hlisted : romRow Config.romTable row.1 = some ⟨row.2.1, row.2.2.1⟩ ∧
      paramWidth row.2.2.1 = row.2.2.2 := by
    revert row
    decide
  obtain ⟨hread, hwidth⟩ := hlisted
  rw [← hwidth]
  exact ptByname_answers_row (hrom ▸ hread)

/-- Settles O2: the indices are pairwise different, so the lookup gives the row the statement names;
where no row has the index it misses. -/
theorem ptByindexHitsOrMisses : Obligations.PtByindexHitsOrMisses := by
  intro s i hrom
  constructor
  · rintro r ⟨_, t⟩ hrow rfl
    have hlookup := (romLookup_eq_some_iff romTable_indices_nodup).2 hrow
    have hanswer := ptByindex_answers_found (s := s) (hrom ▸ hlookup)
    cases t <;> exact hanswer
  · intro hmiss
    exact ptByindex_answers_miss (hrom ▸ (romFind_eq_none_iff i 0 Config.romTable).2 hmiss)

/-- Settles O3: both clauses are the inverse reads of the ROM, one in each direction. -/
theorem lookupsAgree : Obligations.LookupsAgree := by
  intro s hrom
  constructor
  · intro k hk
    obtain ⟨i, t, hrow⟩ := exists_romRow_romTable hk
    have hfound :=
      ptByindex_answers_found (s := s) (hrom ▸ romRow_eq_some_iff_romLookup.1 hrow)
    rw [foundRow, BitVec.ofNat_toNat, BitVec.setWidth_eq] at hfound
    exact ⟨i, t, paramWidth t, ptByname_answers_row (hrom ▸ hrow), hfound⟩
  · intro i k r hr hfound hk
    obtain ⟨n, t, hlookup, rfl⟩ := ptByindex_found_inv hr hfound
    cases hk
    rw [hrom] at hlookup
    have hrow : romRow Config.romTable (BitVec.ofNat 4 n) = some ⟨i, t⟩ := by
      rw [romRow_eq_some_iff_romLookup, toNat_ofNat_of_romLookup hlookup, hlookup]
    exact ⟨_, ptByname_answers_row (hrom ▸ hrow), rfl, rfl⟩

end Sys2Proof.Machine
end

section
/-! SUPPORT. The address word, packed and taken apart (41_address.md R90 to R94). -/

namespace Sys2Proof.Machine

/-- Each operand of `build_address` stands in its own byte (41_address.md R90). -/
theorem packAddress_fields (c h m : Byte) :
    (packAddress c h m).extractLsb' 24 8 = c ∧ (packAddress c h m).extractLsb' 16 8 = 0#8 ∧
      (packAddress c h m).extractLsb' 8 8 = h ∧ (packAddress c h m).extractLsb' 0 8 = m :=
  packAddress_eq c h m ▸ address_fields c 0#8 h m

/-- Two packings into one word have the same operands (41_address.md R92). -/
theorem packAddress_injective {c h m c' h' m' : Byte}
    (heq : packAddress c h m = packAddress c' h' m') : c = c' ∧ h = h' ∧ m = m' := by
  obtain ⟨hc, -, hh, hm⟩ := packAddress_fields c h m
  obtain ⟨hc', -, hh', hm'⟩ := packAddress_fields c' h' m'
  rw [← heq] at hc' hh' hm'
  exact ⟨hc.symm.trans hc', hh.symm.trans hh', hm.symm.trans hm'⟩

/-- A word with zero in bits 23:16 is what its other three byte fields pack to. -/
theorem packAddress_of_fields {a : Word32} (hmid : a.extractLsb' 16 8 = 0#8) :
    packAddress (a.extractLsb' 24 8) (a.extractLsb' 8 8) (a.extractLsb' 0 8) = a := by
  rw [packAddress_eq, ← hmid]
  exact byteOf_append a

/-- A packed address leaves its top three bits free: the largest command code is 18
(41_address.md R90). -/
theorem IsPackedAddress.toNat_lt {a : Word32} (ha : IsPackedAddress a) : a.toNat < 2 ^ 29 := by
  have hcode : ∀ c ∈ [3#8, 4#8, 6#8, 17#8, 18#8], c.toNat ≤ 18 := by decide
  have htop := hcode _ ha.1
  rw [toNat_field] at htop
  omega

/-- Whether ADDR.UNPACK accepts a word is whether the word is a packed address
(41_address.md R94). -/
theorem unpack_legal_iff (a : Word32) :
    (isCommand (byteOf a 3) && byteOf a 2 == 0#8) = true ↔ IsPackedAddress a := by
  rw [Bool.and_eq_true, isCommand_iff, beq_iff_eq]
  rfl

end Sys2Proof.Machine
end

section
/-! SUPPORT. What the three address operations answer, one equation per case (41_address.md). -/

namespace Sys2Proof.Machine

variable {c h m : Byte} {a : Word32}

theorem exec_addrPack_legal (hc : c ∈ [3#8, 4#8, 6#8, 17#8, 18#8]) (s : State) :
    exec (.addrPack c h m) s
      = respond { status := .ok, addr32 := some (packAddress c h m) } s :=
  if_pos ((isCommand_iff c).2 hc)

theorem exec_addrPack_reserved (hc : c ∉ [3#8, 4#8, 6#8, 17#8, 18#8]) (s : State) :
    exec (.addrPack c h m) s = respond (illegalOperand c.toNat) s :=
  if_neg (mt (isCommand_iff c).1 hc)

/-- ADDR.PACK gives a word exactly when the code is a command's and the word is the packing
(41_address.md R90, R91). -/
theorem addrPack_answers_iff {s : State} :
    AnswersOnly (exec (.addrPack c h m) s) s { status := .ok, addr32 := some a } ↔
      c ∈ [3#8, 4#8, 6#8, 17#8, 18#8] ∧ packAddress c h m = a := by
  by_cases hc : c ∈ [3#8, 4#8, 6#8, 17#8, 18#8]
  · rw [exec_addrPack_legal hc, answersOnly_respond_iff]
    simp [hc]
  · rw [exec_addrPack_reserved hc, answersOnly_respond_iff]
    simp [hc, illegalOperand, raise]

/-- Whatever ADDR.PACK gives is a packed address. -/
theorem isPackedAddress_of_addrPack {s : State}
    (hpack : AnswersOnly (exec (.addrPack c h m) s) s { status := .ok, addr32 := some a }) :
    IsPackedAddress a := by
  obtain ⟨hc, rfl⟩ := addrPack_answers_iff.1 hpack
  exact packAddress_isPacked hc h m

/-- A response that reports the four byte fields of a word (41_address.md R93, R94). -/
def rawFields (status : Status) (info : Option Nat) (a : Word32) : Response :=
  { status := status
    info := info
    cmd := some (a.extractLsb' 24 8)
    mid := some (a.extractLsb' 16 8)
    hostId := some (a.extractLsb' 8 8)
    motorId := some (a.extractLsb' 0 8) }

theorem addrUnpack_answers_packed (ha : IsPackedAddress a) (s : State) :
    AnswersOnly (exec (.addrUnpack a) s) s (rawFields .ok none a) := by
  have hlegal := (unpack_legal_iff a).2 ha
  simp only [exec, execAddrUnpack, hlegal, if_true]
  exact answersOnly_respond _ s

theorem addrUnpack_answers_other (ha : ¬IsPackedAddress a) (s : State) :
    AnswersOnly (exec (.addrUnpack a) s) s (rawFields .illegalOperand (some a.toNat) a) := by
  have hother := Bool.eq_false_iff.2 (mt (unpack_legal_iff a).1 ha)
  simp only [exec, execAddrUnpack, hother, Bool.false_eq_true, if_false]
  exact answersOnly_respond _ s

/-- `OK` of ADDR.UNPACK inverted: the word is a packed address, and the response reports its
fields. -/
theorem addrUnpack_ok_inv {s : State} {r : Response}
    (hr : AnswersOnly (exec (.addrUnpack a) s) s r) (hok : r.status = .ok) :
    IsPackedAddress a ∧ r = rawFields .ok none a := by
  by_cases ha : IsPackedAddress a
  · exact ⟨ha, hr.unique (addrUnpack_answers_packed ha s)⟩
  · obtain rfl := hr.unique (addrUnpack_answers_other ha s)
    cases hok

/-- The bytes of `to_be(w, 4)` are the four bytes whose big-endian word is `w`. -/
theorem toBe4_eq_iff {w : Word32} {b : Vector Byte 4} :
    toBe4 w = b ↔ w = (b[0] ++ b[1] ++ b[2] ++ b[3] : Word32) := by
  constructor
  · rintro rfl
    exact (toBe4_append w).symm
  · rintro rfl
    obtain ⟨h0, h1, h2, h3⟩ := address_fields b[0] b[1] b[2] b[3]
    exact Vector.ext fun
      | 0, _ => h0
      | 1, _ => h1
      | 2, _ => h2
      | 3, _ => h3

/-- ADDR.SER gives exactly the bytes whose big-endian word is the word of the strategy
(41_address.md R96). -/
theorem addrSer_answers_iff {strat : Strategy} {b : Vector Byte 4} {s : State} :
    AnswersOnly (exec (.addrSer a strat) s) s { status := .ok, bytes4 := some b } ↔
      strategyWord a strat = (b[0] ++ b[1] ++ b[2] ++ b[3] : Word32) := by
  rw [← toBe4_eq_iff, exec, execAddrSer, answersOnly_respond_iff]
  simp [serialiseAddress]

end Sys2Proof.Machine
end

section
/-! SUPPORT. The rotation of ROT3 (41_address.md R96): undone by the right rotation, and on a packed
address no more than a shift. -/

namespace Sys2Proof.Machine

theorem rotateRight_rotateLeft (w : Word32) : (w.rotateLeft 3).rotateRight 3 = w := by
  ext i hi
  by_cases hlow : i < 29
  · simp [BitVec.getElem_rotateRight, BitVec.getElem_rotateLeft, hlow]
  · have hwrap : i - 29 < 3 := by omega
    have hback : 29 + (i - 29) = i := by omega
    simp [BitVec.getElem_rotateRight, BitVec.getElem_rotateLeft, hlow, hwrap, hback]

theorem rotateLeft_rotateRight (w : Word32) : (w.rotateRight 3).rotateLeft 3 = w := by
  ext i hi
  by_cases hlow : i < 3
  · simp [BitVec.getElem_rotateRight, BitVec.getElem_rotateLeft, hlow]
  · have hup : i - 3 < 29 := by omega
    have hback : 3 + (i - 3) = i := by omega
    simp [BitVec.getElem_rotateRight, BitVec.getElem_rotateLeft, hlow, hup, hback]

/-- A word turned left is a given word exactly when it is that word turned right. -/
theorem rotateLeft_eq_iff {a w : Word32} : a.rotateLeft 3 = w ↔ a = w.rotateRight 3 :=
  ⟨fun h => h ▸ (rotateRight_rotateLeft a).symm, fun h => h ▸ rotateLeft_rotateRight w⟩

/-- The bits ROT3 brings round to the right are the top three, which a packed address has zero. -/
theorem IsPackedAddress.rotl3_eq_shiftLeft {a : Word32} (ha : IsPackedAddress a) :
    rotl3 a = a <<< 3 := by
  have htop : a >>> 29 = 0#32 := by
    apply BitVec.eq_of_toNat_eq
    rw [BitVec.toNat_ushiftRight, Nat.shiftRight_eq_div_pow, Nat.div_eq_of_lt ha.toNat_lt]
    rfl
  rw [rotl3, htop, BitVec.or_zero]

end Sys2Proof.Machine
end

section
/-! SUPPORT. The statements about addresses (41_address.md R90 to R96). -/

namespace Sys2Proof.Machine

/-- Settles O4: a command's code packs, and the fields of the word are read off `build_address`; any
other code is refused. -/
theorem addrPackPlacesFields : Obligations.AddrPackPlacesFields := by
  intro s cmd h m
  refine ⟨fun hc => ?_, fun hc => ?_⟩
  · obtain ⟨hcmd, hmid, hhost, hmotor⟩ := packAddress_fields cmd h m
    refine ⟨packAddress cmd h m, addrPack_answers_iff.2 ⟨hc, rfl⟩, packAddress_toNat cmd h m, hcmd,
      hmid, hhost, hmotor, BitVec.eq_of_toNat_eq ?_⟩
    rw [toNat_field, Nat.div_eq_of_lt (packAddress_isPacked hc h m).toNat_lt]
    rfl
  · rw [exec_addrPack_reserved hc]
    exact answersOnly_respond _ s

/-- Settles O5: each answer fixes the word as the packing of its operands. -/
theorem addrPackIsInjective : Obligations.AddrPackIsInjective := by
  intro s u cmd h m cmd' h' m' a hpack hpack'
  obtain ⟨-, hword⟩ := addrPack_answers_iff.1 hpack
  obtain ⟨-, hword'⟩ := addrPack_answers_iff.1 hpack'
  exact packAddress_injective (hword.trans hword'.symm)

/-- Settles O6: the two answers of ADDR.UNPACK; a word ADDR.PACK gives is of the first kind. -/
theorem addrUnpackReportsFields : Obligations.AddrUnpackReportsFields := fun s _ =>
  ⟨fun ha => addrUnpack_answers_packed ha s, fun ha =>
    ⟨addrUnpack_answers_other ha s, fun _ _ _ _ hpack => ha (isPackedAddress_of_addrPack hpack)⟩⟩

/-- Settles O7: the fields of a packing are its operands, and a word accepted by ADDR.UNPACK has a
command's code and packs from its own fields. -/
theorem packAndUnpackAreInverse : Obligations.PackAndUnpackAreInverse := by
  refine ⟨fun s u cmd h m hc => ?_, fun s u w cmd h m r hr hok hcmd hhost hmotor => ?_⟩
  · have hunpack := addrUnpack_answers_packed (packAddress_isPacked hc h m) u
    obtain ⟨hfc, hfmid, hfh, hfm⟩ := packAddress_fields cmd h m
    rw [rawFields, hfc, hfmid, hfh, hfm] at hunpack
    exact ⟨_, addrPack_answers_iff.2 ⟨hc, rfl⟩, hunpack⟩
  · obtain ⟨⟨hcode, hmid⟩, rfl⟩ := addrUnpack_ok_inv hr hok
    cases hcmd
    cases hhost
    cases hmotor
    exact addrPack_answers_iff.2 ⟨hcode, packAddress_of_fields hmid⟩

/-- Settles O8: the answer is the four bytes of the strategy's word, whatever that word is. -/
theorem addrSerSerialises : Obligations.AddrSerSerialises := by
  intro s a
  have hrot : strategyWord a .rot3 = a.rotateLeft 3 := rotl3_eq a
  have hbytes := toBe4_append (a.rotateLeft 3)
  exact ⟨⟨_, addrSer_answers_iff.2 (toBe4_append a).symm, toBe4_append a⟩,
    _, addrSer_answers_iff.2 (hrot.trans hbytes.symm), hbytes⟩

/-- Settles O9: the word of the strategy is the big-endian word of the bytes, and ROT3's rotation is
undone by the one to the right. -/
theorem addressStrategiesAreBijective : Obligations.AddressStrategiesAreBijective := by
  intro s b a
  refine ⟨addrSer_answers_iff, ?_⟩
  rw [addrSer_answers_iff, strategyWord, rotl3_eq, rotateLeft_eq_iff]

/-- Settles O10: the packed word's rotation is a shift, which clears the low three bits of the last
byte. -/
theorem rotationOfPackedAddressIsShift : Obligations.RotationOfPackedAddressIsShift := by
  intro s u cmd h m a b hpack hser
  have hword : (b[0] ++ b[1] ++ b[2] ++ b[3] : Word32) = a <<< 3 :=
    (addrSer_answers_iff.1 hser).symm.trans
      (isPackedAddress_of_addrPack hpack).rotl3_eq_shiftLeft
  refine ⟨hword, ?_⟩
  have hnum := congrArg BitVec.toNat hword
  apply BitVec.eq_of_toNat_eq
  simp only [toNat_append_add, BitVec.toNat_shiftLeft, Nat.shiftLeft_eq] at hnum
  rw [toNat_field, BitVec.toNat_ofNat]
  omega

end Sys2Proof.Machine
end

section
/-! SUPPORT. The payload operations (42_payload.md R101 to R110): what PAY.BUILD answers for each
type, and what an interpreter reads back from it. -/

namespace Sys2Proof.Machine

/-- Every type code but the reserved one is the code of a type (30_encoding.md R54). -/
theorem exists_paramTypeCode {c : BitVec 2} (hc : c ≠ 3#2) : ∃ t, paramTypeCode t = c := by
  have hcode : c = 0#2 ∨ c = 1#2 ∨ c = 2#2 := by
    revert c
    decide
  rcases hcode with rfl | rfl | rfl
  · exact ⟨.float32, rfl⟩
  · exact ⟨.int16, rfl⟩
  · exact ⟨.int8, rfl⟩

/-- Bytes 0 to 3 of a built payload are the index, high byte first, and two zero bytes, whatever the
type (42_payload.md R102). -/
theorem valuePayload_head (index : Half) (t : ParamType) (value : F32) :
    ((valuePayload index t value)[0] = byteOf index 1 ∧
        (valuePayload index t value)[1] = byteOf index 0) ∧
      (valuePayload index t value)[2] = 0#8 ∧ (valuePayload index t value)[3] = 0#8 := by
  cases t <;> exact ⟨⟨rfl, rfl⟩, rfl, rfl⟩

/-- Settles O12: a code that is not reserved is some type's, and every type's payload has one
head. -/
theorem payBuildWritesIndexBigEndian : Obligations.PayBuildWritesIndexBigEndian := by
  intro s index ptype value hptype
  obtain ⟨t, rfl⟩ := exists_paramTypeCode hptype
  exact ⟨_, payBuild_answers s index t value, valuePayload_head index t value⟩

/-- Settles O18: the word DEC.F32 reads from a payload of type Float32 is the value itself. -/
theorem floatRoundTripIsExact : Obligations.FloatRoundTripIsExact := by
  intro s u index value
  exact ⟨_, payBuild_answers s index .float32 value, decF32_valuePayload u index .float32 value⟩

/-- Settles O19: the word written is the converted integer zero-extended, and the reader's view of
its own type cuts the extension off again. -/
theorem integerRoundTripIsConverted : Obligations.IntegerRoundTripIsConverted := by
  intro s u index value
  refine ⟨fun hrom => ⟨_, payBuild_answers s index .int16 value, ?_⟩,
    fun hrom => ⟨_, payBuild_answers s index .int8 value, ?_⟩⟩
  · have hread := decResp_valuePayload hrom .int16 value
    rwa [typedValue, writtenWord, BitVec.setWidth_setWidth_of_le _ (show 16 ≤ 32 by decide),
      BitVec.setWidth_eq] at hread
  · have hread := decResp_valuePayload hrom .int8 value
    rwa [typedValue, writtenWord, BitVec.setWidth_setWidth_of_le _ (show 8 ≤ 32 by decide),
      BitVec.setWidth_eq] at hread

/-- Settles O11: with no parameter the operation looks at no other operand. -/
theorem payBuildWithoutParameterIsZero : Obligations.PayBuildWithoutParameterIsZero := by
  intro s index ptype value
  exact answersOnly_respond _ s

/-- Settles O13: the four value bytes of type Float32 are the bytes of the pattern. -/
theorem payBuildFloatCopiesPattern : Obligations.PayBuildFloatCopiesPattern := by
  intro s index value
  exact ⟨_, payBuild_answers s index .float32 value, rfl, rfl, rfl, rfl⟩

/-- Settles O14: the value bytes of both integer types are the bytes of the converted word, then
zeros. -/
theorem payBuildIntegersWriteConvertedWord : Obligations.PayBuildIntegersWriteConvertedWord := by
  intro s index value
  exact ⟨⟨_, payBuild_answers s index .int16 value, rfl, rfl, rfl, rfl⟩,
    _, payBuild_answers s index .int8 value, rfl, rfl, rfl, rfl⟩

/-- Settles O17: the operation has one answer, the payload of the statement. -/
theorem payResetIsFixed : Obligations.PayResetIsFixed := by
  intro s
  exact answersOnly_respond _ s

end Sys2Proof.Machine
end

section
/-! SUPPORT. The conversion of an f32 to an integer (42_payload.md R106): the model's count of
`2^-149` units against the magnitude over the rationals. -/

namespace Sys2Proof.Machine

/-- The magnitude of an f32 by its fields (00_scope.md R7), subnormal or with an exponent, counted
in units of `2^-149`. -/
theorem f32Scaled_div (v : F32) :
    (if f32Exponent v = 0 then (f32Fraction v / 2 ^ 149 : Rat)
      else (2 ^ 23 + f32Fraction v) * 2 ^ f32Exponent v / 2 ^ 150) = f32Scaled v / 2 ^ 149 := by
  unfold f32Scaled
  rcases f32Exponent v with _ | k
  · rfl
  · rw [if_neg k.succ_ne_zero, if_neg k.succ_ne_zero, Nat.add_sub_cancel, pow_succ 2 k,
      pow_succ 2 149, ← mul_assoc, mul_div_mul_right _ _ two_ne_zero]
    push_cast
    rfl

/-- `|trunc(v)|` is the whole part of the magnitude. -/
theorem truncMagnitude_eq_floor (v : F32) :
    (truncMagnitude v : Int) = ⌊(f32Scaled v : Rat) / 2 ^ 149⌋ := by
  have hfloor := Rat.floor_natCast_div_natCast (f32Scaled v) (2 ^ 149)
  rw [truncMagnitude, Int.natCast_ediv, ← hfloor, Nat.cast_pow, Nat.cast_ofNat]

theorem abs_trunc (v : F32) : |trunc v| = truncMagnitude v := by
  unfold trunc
  split
  · rw [abs_neg, Nat.abs_cast]
  · rw [Nat.abs_cast]

/-- The domain of the conversion (42_payload.md R106). -/
theorem cvtInDomain_iff (v : F32) :
    cvtInDomain v = true ↔ f32Exponent v ≠ 255 ∧ |trunc v| < 2 ^ 31 := by
  rw [cvtInDomain, f32Finite, Bool.and_eq_true, bne_iff_ne, decide_eq_true_iff, abs_trunc]
  norm_cast

/-- Inside its domain the conversion reduces the integer part modulo `2^n`. -/
theorem cvt_toNat {v : F32} (hv : cvtInDomain v = true) (n : Nat) :
    ((cvt n v).toNat : Int) = trunc v % 2 ^ n := by
  have hpos : (0 : Int) ≤ trunc v % 2 ^ n := Int.emod_nonneg _ (by positivity)
  rw [cvt, if_pos hv, BitVec.toNat_ofInt]
  push_cast
  exact Int.toNat_of_nonneg hpos

/-- Outside its domain the conversion is the low bits of the free function. -/
theorem cvt_out_of_domain {v : F32} (hv : ¬cvtInDomain v = true) (n : Nat) :
    cvt n v = (Config.cvtOob v).setWidth n := if_neg hv

/-- Settles O15: the integer of the statement is `trunc(v)`, and its condition is the domain of the
conversion. -/
theorem conversionTruncatesAndReduces : Obligations.ConversionTruncatesAndReduces := by
  intro n v e f magnitude t
  have hmagnitude : ⌊magnitude⌋ = truncMagnitude v :=
    (congrArg Int.floor (f32Scaled_div v)).trans (truncMagnitude_eq_floor v).symm
  have ht : t = trunc v := by
    simp only [t, hmagnitude]
    rfl
  rw [ht]
  exact ⟨fun h => cvt_toNat ((cvtInDomain_iff v).2 h) n,
    fun h => cvt_out_of_domain (mt (cvtInDomain_iff v).1 h) n⟩

end Sys2Proof.Machine
end

section
/-! SUPPORT. What the FRAME operations and SER.WRAP answer (43_frames.md R121 to R133), and what
DEC.RESP.SER reads out of the envelope. -/

namespace Sys2Proof.Machine

/-! ### The five frames (43_frames.md R121 to R125) -/

/-- A FRAME operation answers with its address fields side by side and its payload
(30_encoding.md R50). -/
theorem respondFrame_answers (cmd h m : Byte) (p : Payload) (s : State) :
    AnswersOnly (respondFrame cmd h m p s) s
      { status := .ok, addr32 := some (cmd ++ 0#8 ++ h ++ m : Word32), p := some p } := by
  rw [respondFrame, packAddress_eq]
  exact answersOnly_respond _ s

/-- Settles O21: three commands with their fixed payloads. -/
theorem fixedPayloadFramesAreBuilt : Obligations.FixedPayloadFramesAreBuilt := fun s h m =>
  ⟨respondFrame_answers Config.enableCode h m Config.zeroPayload s,
    respondFrame_answers Config.disableCode h m Config.zeroPayload s,
    respondFrame_answers Config.resetCode h m Config.resetPayload s⟩

theorem truncMagnitude_zero : truncMagnitude 0#32 = 0 := Nat.zero_div _

/-- The conversion takes +0.0 to the zero word of every width (42_payload.md R106). -/
theorem cvt_zero (n : Nat) : cvt n 0#32 = 0#n := by
  have hdomain : cvtInDomain 0#32 = true := by
    rw [cvtInDomain, truncMagnitude_zero]
    rfl
  have htrunc : trunc 0#32 = 0 := by
    rw [trunc, truncMagnitude_zero]
    rfl
  rw [cvt, if_pos hdomain, htrunc]
  exact BitVec.ofInt_ofNat n 0

/-- The payload of +0.0 is the index and no value, whatever the type (30_encoding.md R57). -/
theorem valuePayload_zero (index : Half) (t : ParamType) :
    valuePayload index t 0#32 = parameterPayload index 0#8 0#8 0#8 0#8 := by
  cases t with
  | float32 => rfl
  | int16 =>
    rw [valuePayload, cvt_zero]
    rfl
  | int8 => rw [valuePayload, cvt_zero]

/-- Settles O22: the payload of FRAME.READ is the one of +0.0 for each type. -/
theorem frameReadCarriesIndexOnly : Obligations.FrameReadCarriesIndexOnly := by
  intro s h m index
  refine ⟨parameterPayload index 0#8 0#8 0#8 0#8, respondFrame_answers Config.readCode h m _ s, rfl,
    fun c hc => ?_⟩
  obtain ⟨t, rfl⟩ := exists_paramTypeCode hc
  rw [← valuePayload_zero index t]
  exact payBuild_answers s index t 0#32

/-- FRAME.WRITE of one of the three types (43_frames.md R125). -/
theorem frameWrite_answers (s : State) (h m : Byte) (index : Half) (t : ParamType) (value : F32) :
    AnswersOnly (exec (.frameWrite h m index (paramTypeCode t) value) s) s
      { status := .ok, addr32 := some (Config.writeCode ++ 0#8 ++ h ++ m : Word32),
        p := some (valuePayload index t value) } := by
  simp only [exec, execFrameWrite, paramTypeOf_code]
  exact respondFrame_answers _ h m _ s

/-- Settles O23: a code that is not reserved is some type's, and both operations carry that type's
payload; code 3 is no type. -/
theorem frameWriteCarriesBuiltPayload : Obligations.FrameWriteCarriesBuiltPayload := by
  intro s u h m index c value
  refine ⟨fun hc => ?_, ?_⟩
  · obtain ⟨t, rfl⟩ := exists_paramTypeCode hc
    exact ⟨_, payBuild_answers u index t value, frameWrite_answers s h m index t value⟩
  · rintro rfl
    exact (reservedTypeIsIllegal s h m index value).2

/-! ### The envelope (43_frames.md R132, R133) -/

/-- A payload read as a frame: index, value and reserved bytes (44_decode.md R140). -/
def payloadFrame (p : Payload) : ResponseFrame where
  parameterIndex := be16 p[0] p[1]
  rawValue := le32 p[4] p[5] p[6] p[7]
  reservedBytes := #v[p[2], p[3]]

section
variable (a : Word32) (strat : Strategy) (p : Payload)

/-- SER.WRAP answers with the envelope, whatever its operands are. -/
theorem serWrap_answers (s : State) :
    AnswersOnly (exec (.serWrap a strat p) s) s
      { status := .ok, tx := some (wrap a strat p) } :=
  answersOnly_respond _ s

/-- The payload stands in the envelope from offset 7 on (20_memory.md R32). -/
theorem wrap_payload (k : Nat) (hk : k < 8) : (wrap a strat p)[7 + k] = p[k] := by
  interval_cases k <;> rfl

/-- The address bytes of the envelope, put together again, are the word of the strategy. -/
theorem wrap_address :
    ((wrap a strat p)[2] ++ (wrap a strat p)[3] ++ (wrap a strat p)[4] ++ (wrap a strat p)[5]
      : Word32) = strategyWord a strat := toBe4_append (strategyWord a strat)

/-- The window of a serial frame is the payload it was wrapped around. -/
theorem extract_wrap :
    extract (wrap a strat p).toList Config.serialPayloadOffset = some (payloadFrame p) := rfl

/-- DEC.RESP.SER of an envelope interprets the payload inside: no legal minimum length is above its
17 bytes (44_decode.md R146). -/
theorem decRespSer_wrap {u : State} (hu : u.params.Legal) :
    AnswersOnly (exec (.decRespSer (wrap a strat p).toList) u) u
      (interpretFrame u.rom (payloadFrame p)) := by
  obtain ⟨-, -, hmin⟩ := hu
  have hlong : ¬(wrap a strat p).toList.length < u.params.serialMinLen := by
    rw [Vector.length_toList]
    omega
  simp only [exec, execDecRespSer, interpretSerial, interpret, if_neg hlong, extract_wrap]
  exact answersOnly_respond _ u

end

/-- Settles O25: the fixed bytes are read off the envelope, and ROT3's word is a rotation. -/
theorem serWrapLaysOutEnvelope : Obligations.SerWrapLaysOutEnvelope := by
  intro s a strat p
  refine ⟨_, serWrap_answers a strat p s, ⟨rfl, rfl⟩, (wrap_address a strat p).trans ?_, rfl,
    wrap_payload a strat p, rfl, rfl⟩
  cases strat with
  | plain => rfl
  | rot3 => exact rotl3_eq a

/-- The interpreter reports the three fields of a frame whether or not it knows the index
(44_decode.md R147). -/
theorem interpretFrame_reports (rom : List ParamSpec) (f : ResponseFrame) :
    (interpretFrame rom f).parameterIndex = some f.parameterIndex ∧
      (interpretFrame rom f).reservedBytes = some f.reservedBytes ∧
      (interpretFrame rom f).rawValue = some f.rawValue ∧
      ((interpretFrame rom f).status = .ok ∨
        (interpretFrame rom f).status = .unknownParameter) := by
  rcases interpretFrame_cases rom f with ⟨n, h⟩ | ⟨t, h⟩ <;> rw [h]
  · exact ⟨rfl, rfl, rfl, .inr rfl⟩
  · cases t <;> exact ⟨rfl, rfl, rfl, .inl rfl⟩

/-- The index and the reserved bytes that a reader finds in a built payload. -/
theorem payloadFrame_valuePayload (index : Half) (t : ParamType) (value : F32) :
    (payloadFrame (valuePayload index t value)).parameterIndex = index ∧
      (payloadFrame (valuePayload index t value)).reservedBytes = #v[0, 0] := by
  obtain ⟨⟨h0, h1⟩, h2, h3⟩ := valuePayload_head index t value
  constructor
  · rw [payloadFrame, h0, h1]
    exact byteOf_append_half index
  · rw [payloadFrame, h2, h3]
    rfl

/-- Settles O26: the interpreter reports the fields of the payload that PAY.BUILD built. -/
theorem wrappedFramesParse : Obligations.WrappedFramesParse := by
  intro s u a strat index c value hlegal hc
  obtain ⟨t, rfl⟩ := exists_paramTypeCode hc
  obtain ⟨hindex, hreserved⟩ := payloadFrame_valuePayload index t value
  obtain ⟨h1, h2, h3, h4⟩ :=
    interpretFrame_reports u.rom (payloadFrame (valuePayload index t value))
  exact ⟨_, _, _, payBuild_answers s index t value, serWrap_answers a strat _ s,
    decRespSer_wrap a strat _ hlegal, h1.trans (congrArg some hindex),
    h2.trans (congrArg some hreserved), h3, h4⟩

end Sys2Proof.Machine
end

section
/-! SUPPORT. The command frames as the host's exchanges (43_frames.md R126, 45_host_sequences.md
R170 to R177): the form a frame is handed over in, the reply, and the end of a read. -/

namespace Sys2Proof.Machine

/-! ### The frame handed over (45_host_sequences.md R170) -/

section
variable {s : State} (a : Word32) (p : Payload)

theorem handedForm_native (hbinding : s.params.binding = .native) :
    s.handedForm a p = .native a p := by
  rw [State.handedForm, hbinding]

theorem handedForm_serial (hbinding : s.params.binding = .serial) :
    s.handedForm a p = .serial (wrap a s.params.serialAddrStrategy p) := by
  rw [State.handedForm, hbinding]

/-- On the serial binding the frame handed over is what SER.WRAP answers. -/
theorem handedForm_serial_serWrap (hbinding : s.params.binding = .serial) :
    ∃ tx, s.handedForm a p = .serial tx ∧
      AnswersOnly (exec (.serWrap a s.params.serialAddrStrategy p) s) s
        { status := .ok, tx := some tx } :=
  ⟨_, handedForm_serial a p hbinding, serWrap_answers a _ p s⟩

end

/-! ### The reply (45_host_sequences.md R171) -/

section
variable {s : State} {isRead : Bool}

theorem replyOf_of_failure
    (h : ¬(s.transport.nextAnswer.sendOk = true ∧ s.transport.nextAnswer.receiveOk = true)) :
    replyOf s isRead = .error := if_neg h

variable (h : s.transport.nextAnswer.sendOk = true ∧ s.transport.nextAnswer.receiveOk = true)
include h

theorem replyOf_of_empty (hq : s.queueAtSend isRead ++ s.transport.nextAnswer.inWindow = []) :
    replyOf s isRead = .timeout := by
  simp only [replyOf, if_pos h, hq]

theorem replyOf_of_cons {f : List Byte} {q : List (List Byte)}
    (hq : s.queueAtSend isRead ++ s.transport.nextAnswer.inWindow = f :: q) :
    replyOf s isRead = .got f := by
  simp only [replyOf, if_pos h, hq]

/-- Where both transport calls succeed, the reply is a timeout or a frame. -/
theorem replyOf_of_success : replyOf s isRead = .timeout ∨ ∃ f, replyOf s isRead = .got f := by
  rcases hq : s.queueAtSend isRead ++ s.transport.nextAnswer.inWindow with _ | ⟨f, q⟩
  · exact .inl (replyOf_of_empty h hq)
  · exact .inr ⟨f, replyOf_of_cons h hq⟩

end

/-! ### The frames whose reply is drained (45_host_sequences.md R174, R175) -/

/-- Four of the command frames are one drained exchange, each under its own code. -/
theorem exec_drained_frame (s : State) (h m : Byte) (p : Payload) {c : Instr × Byte}
    (hc : c ∈ [(Instr.wireEnable h m p, 3#8), (.wireDisable h m p, 4#8), (.wireReset h m p, 6#8),
      (.wireWrite h m p, 18#8)]) :
    exec c.1 s = sendAndDrain (c.2 ++ 0#8 ++ h ++ m : Word32) p s := by
  simp only [List.mem_cons, List.not_mem_nil, or_false] at hc
  rw [← packAddress_eq]
  rcases hc with rfl | rfl | rfl | rfl <;> rfl

/-- Settles O48: each of the four is a drained exchange, whose reply decides no more than whether a
failure is surfaced. -/
theorem drainedFramesComplete : Obligations.DrainedFramesComplete := by
  intro s h m p hidle c hc a early
  obtain ⟨t, hrun, hframe, hhanded, hqueue, hvalue, hphase, hcall⟩ :=
    sendAndDrain_spec s (c.2 ++ 0#8 ++ h ++ m : Word32) p hidle
  refine ⟨t, (exec_drained_frame s h m p hc).trans hrun, hframe,
    ⟨_, hhanded, handedForm_native _ p, handedForm_serial_serWrap _ p⟩, hqueue, hvalue, hphase, ?_⟩
  rw [hcall]
  by_cases hok : a.sendOk = true ∧ a.receiveOk = true
  · rw [if_pos hok]
    rcases replyOf_of_success hok with hreply | ⟨f, hreply⟩ <;> rw [hreply]
  · rw [if_neg hok, replyOf_of_failure hok]

/-! ### The end of a read (45_host_sequences.md R176, R177) -/

/-- The interpreter reads of the state what an exchange leaves alone. -/
theorem OnlyHostChanged.interpretReply_eq {s u : State} (h : OnlyHostChanged s u)
    (rx : List Byte) : u.interpretReply rx = s.interpretReply rx := by
  obtain ⟨hrom, hparams, -⟩ := h
  simp only [State.interpretReply, interpretNative, interpretSerial, hrom, hparams]

/-- DEC.RESP answers what the host takes a native reply for. -/
theorem exec_decResp_native {s : State} (hbinding : s.params.binding = .native) (rx : List Byte) :
    exec (.decResp rx) s = respond (s.interpretReply rx) s := by
  rw [State.interpretReply, hbinding]
  rfl

/-- DEC.RESP.SER answers what the host takes a serial reply for. -/
theorem exec_decRespSer_serial {s : State} (hbinding : s.params.binding = .serial)
    (rx : List Byte) : exec (.decRespSer rx) s = respond (s.interpretReply rx) s := by
  rw [State.interpretReply, hbinding]
  rfl

/-- A read on the native binding flushes the queue. -/
theorem queueAtSend_read_native {s : State} (hbinding : s.params.binding = .native) :
    s.queueAtSend true = [] := by
  rw [State.queueAtSend, hbinding]
  rfl

/-- A read on the serial binding keeps it. -/
theorem queueAtSend_read_serial {s : State} (hbinding : s.params.binding = .serial) :
    s.queueAtSend true = s.transport.rxQueue ++ s.transport.nextAnswer.early := by
  rw [State.queueAtSend, hbinding]
  rfl

/-- A reply without a raw value leaves `last_value` as it was. -/
theorem finishRead_without_raw {u : State} {rx : List Byte}
    (h : (u.interpretReply rx).rawValue = none) :
    u.finishRead (.got rx)
      = u.finishCall u.session.lastValue (.value u.session.lastValue none) := by
  simp only [State.finishRead, h]

/-- A raw value is stored and returned. -/
theorem finishRead_with_raw {u : State} {rx : List Byte} {w : Word32}
    (h : (u.interpretReply rx).rawValue = some w) :
    u.finishRead (.got rx)
      = u.finishCall w (.value w (surfacedStatus (u.interpretReply rx).status)) := by
  simp only [State.finishRead, h]

theorem surfacedStatus_eq (status : Status) :
    surfacedStatus status
      = if status = .unknownParameter then some .unknownParameter else none := by
  cases status <;> rfl

/-- Settles O49: the binding fixes the queue at the send and the decoding operation; then the reply
and its raw value decide how the call ends. -/
theorem readFrameCompletes : Obligations.ReadFrameCompletes := by
  intro s h m p hidle a early decoding
  have hearly : s.queueAtSend true = early := by
    cases hbinding : s.params.binding with
    | native => simp only [early, hbinding, queueAtSend_read_native hbinding]
    | serial => simp only [early, a, hbinding, queueAtSend_read_serial hbinding]
  have hdecoding : ∀ f, exec (decoding f) s = respond (s.interpretReply f) s := by
    cases hbinding : s.params.binding with
    | native => simpa only [decoding, hbinding] using exec_decResp_native hbinding
    | serial => simpa only [decoding, hbinding] using exec_decRespSer_serial hbinding
  obtain ⟨u, t, hrun, ht, hu, hframe, hhanded, hqueue, hvalue, hphase⟩ :=
    sendAndRead_spec s (17#8 ++ 0#8 ++ h ++ m : Word32) p hidle
  have hexec : exec (.wireRead h m p) s = .next t := by
    rw [← hrun, ← packAddress_eq]
    rfl
  rw [queueAfter, hearly] at hqueue
  refine ⟨t, hexec, hframe, hphase,
    ⟨_, hhanded, handedForm_native _ p, handedForm_serial_serWrap _ p⟩, hqueue,
    fun hfailed => ?_, fun hok => ⟨fun hempty => ?_, fun f q r hcons hr => ?_⟩⟩
  · rw [ht, replyOf_of_failure hfailed]
    exact ⟨rfl, hvalue⟩
  · rw [ht, replyOf_of_empty hok (hearly ▸ hempty), ← hvalue]
    exact ⟨rfl, rfl⟩
  · rw [hdecoding f, answersOnly_respond_iff, ← hu.interpretReply_eq] at hr
    subst hr
    rw [ht, replyOf_of_cons hok (hearly ▸ hcons), ← hvalue]
    refine ⟨fun hnone => ?_, fun w hsome => ?_⟩
    · rw [finishRead_without_raw hnone]
      exact ⟨rfl, rfl⟩
    · rw [finishRead_with_raw hsome, surfacedStatus_eq]
      exact ⟨rfl, rfl⟩

end Sys2Proof.Machine
end

section
/-! SUPPORT. The decode operations on received bytes (44_decode.md R140 to R152): what the two entry
points of the interpreter answer to a window, and the parts of the value word that its integer types
take. -/

namespace Sys2Proof.Machine

/-! ### A window inside the received bytes (44_decode.md R140, R144) -/

section
variable (s : State) (i0 i1 r0 r1 v0 v1 v2 v3 : Byte) (rest : List Byte)

/-- DEC.F32 answers with the word of the first window (44_decode.md R141). -/
theorem decF32_window :
    AnswersOnly (exec (.decF32 (i0 :: i1 :: r0 :: r1 :: v0 :: v1 :: v2 :: v3 :: rest)) s) s
      { status := .ok, fval := some (v3 ++ v2 ++ v1 ++ v0 : Word32) } := by
  have hlong :
      ¬(i0 :: i1 :: r0 :: r1 :: v0 :: v1 :: v2 :: v3 :: rest).length < Config.nativeMinLen := by
    simp [Config.nativeMinLen]
  have hwindow := extract_window [] i0 i1 r0 r1 v0 v1 v2 v3 rest
  rw [List.nil_append, List.length_nil] at hwindow
  exact answersOnly_respond_iff.2 (by rw [decodeFloat, if_neg hlong, hwindow])

/-- DEC.RESP interprets the first window, whatever stands behind it (44_decode.md R145). -/
theorem decResp_window :
    AnswersOnly (exec (.decResp (i0 :: i1 :: r0 :: r1 :: v0 :: v1 :: v2 :: v3 :: rest)) s) s
      (interpretFrame s.rom
        ⟨(i0 ++ i1 : Half), (v3 ++ v2 ++ v1 ++ v0 : Word32), #v[r0, r1]⟩) := by
  rw [← interpret_window s.rom [] i0 i1 r0 r1 v0 v1 v2 v3 rest Config.nativeMinLen
    (by simp [Config.nativeMinLen])]
  exact answersOnly_respond _ s

/-- DEC.RESP.SER interprets the window at offset 7, whatever stands before and behind it
(44_decode.md R146, R149). -/
theorem decRespSer_window {pre : List Byte} (hpre : pre.length = 7)
    (hmin : s.params.serialMinLen ≤
      (pre ++ i0 :: i1 :: r0 :: r1 :: v0 :: v1 :: v2 :: v3 :: rest).length) :
    AnswersOnly
      (exec (.decRespSer (pre ++ i0 :: i1 :: r0 :: r1 :: v0 :: v1 :: v2 :: v3 :: rest)) s) s
      (interpretFrame s.rom
        ⟨(i0 ++ i1 : Half), (v3 ++ v2 ++ v1 ++ v0 : Word32), #v[r0, r1]⟩) := by
  rw [← interpret_window s.rom pre i0 i1 r0 r1 v0 v1 v2 v3 rest _ hmin, hpre]
  exact answersOnly_respond _ s

end

/-- Settles O27: the length check decides; behind it the window is read. -/
theorem decFloatReadsValueBytes : Obligations.DecFloatReadsValueBytes := by
  refine fun s => ⟨fun rx hshort => ?_, decF32_window s⟩
  exact answersOnly_respond_iff.2 (if_pos hshort)

/-- Settles O29: both entry points interpret the same window. -/
theorem decRespSerReadsWindowAtSeven : Obligations.DecRespSerReadsWindowAtSeven := by
  intro s pre window rest hpre hwindow hmin
  obtain ⟨i0, i1, r0, r1, v0, v1, v2, v3, behind, rfl⟩ := exists_window hwindow.ge
  rw [List.append_assoc] at hmin ⊢
  exact ⟨_, decRespSer_window s i0 i1 r0 r1 v0 v1 v2 v3 (behind ++ rest) hpre hmin,
    decResp_window s i0 i1 r0 r1 v0 v1 v2 v3 behind⟩

/-- Settles O30: both entry points are the interpreter, which checks the length first. -/
theorem shortFramesAreIncomplete : Obligations.ShortFramesAreIncomplete := by
  refine fun s rx => ⟨fun hshort => ?_, fun hshort => ?_⟩
  · exact answersOnly_respond_iff.2 (interpret_short s.rom rx 0 Config.nativeMinLen hshort)
  · exact answersOnly_respond_iff.2 (interpret_short s.rom rx Config.serialPayloadOffset _ hshort)

/-- Settles O31: both entry points interpret the window, and no row has its index. -/
theorem unknownIndexKeepsRawFields : Obligations.UnknownIndexKeepsRawFields := by
  intro s pre i0 i1 r0 r1 v0 v1 v2 v3 rest hunknown
  have hanswer := interpretFrame_unknown (rom := s.rom)
    (f := ⟨(i0 ++ i1 : Half), (v3 ++ v2 ++ v1 ++ v0 : Word32), #v[r0, r1]⟩) hunknown
  rw [frameResponse] at hanswer
  rw [← hanswer]
  exact ⟨decResp_window s i0 i1 r0 r1 v0 v1 v2 v3 rest,
    decRespSer_window s i0 i1 r0 r1 v0 v1 v2 v3 rest⟩

/-! ### The typed value of the window (44_decode.md R150) -/

/-- The low half of the value word is its first two bytes, high byte first. -/
theorem setWidth_half_of_valueBytes (v0 v1 v2 v3 : Byte) :
    (v3 ++ v2 ++ v1 ++ v0 : Word32).setWidth 16 = (v1 ++ v0 : Half) := by
  have h0 := v0.isLt
  have h1 := v1.isLt
  apply BitVec.eq_of_toNat_eq
  simp only [toNat_append_add, BitVec.toNat_setWidth]
  omega

/-- The low byte of the value word, zero-extended, is its first byte behind a zero byte. -/
theorem setWidth_byte_of_valueBytes (v0 v1 v2 v3 : Byte) :
    ((v3 ++ v2 ++ v1 ++ v0 : Word32).setWidth 8).setWidth 16 = (0#8 ++ v0 : Half) := by
  rw [BitVec.setWidth_append_eq_right]
  exact BitVec.setWidth_eq_append (show 8 ≤ 16 by decide)

/-- Settles O28: the window is interpreted with the type the ROM gives its index. -/
theorem decRespTypesKnownParameter : Obligations.DecRespTypesKnownParameter := by
  rintro s i0 i1 r0 r1 v0 v1 v2 v3 rest t ⟨hrow, hunique⟩
  have hanswer := decResp_window s i0 i1 r0 r1 v0 v1 v2 v3 rest
  rw [interpretFrame_known (f := ⟨(i0 ++ i1 : Half), _, _⟩) hrow hunique] at hanswer
  cases t with
  | float32 => exact hanswer
  | int16 => rwa [typedValue, setWidth_half_of_valueBytes] at hanswer
  | int8 => rwa [typedValue, setWidth_byte_of_valueBytes] at hanswer

end Sys2Proof.Machine
end

section
/-! SUPPORT. The session's calls (45_host_sequences.md R174 to R177): the drained calls as one
command frame for the session's own motor, and the reply that `read_parameter` takes. -/

namespace Sys2Proof.Machine

/-! ### The drained calls (45_host_sequences.md R174, R175) -/

/-- A drained command frame, given by its code and its payload, for the session's own motor. -/
def drainOwn (c : Byte × Payload) (s : State) : Host.Outcome State Fault Refusal :=
  sendAndDrain (packAddress c.1 s.session.address.hostId s.session.address.motorId) c.2 s

/-- Such a frame as it is handed over. -/
def ownForm (s : State) (c : Byte × Payload) : Handed :=
  s.handedForm (c.1 ++ 0#8 ++ s.session.address.hostId ++ s.session.address.motorId : Word32) c.2

theorem hostEnable_eq : hostEnable = drainOwn (Config.enableCode, Config.zeroPayload) := rfl

theorem hostDisable_eq : hostDisable = drainOwn (Config.disableCode, Config.zeroPayload) := rfl

theorem hostResetPosition_eq :
    hostResetPosition = drainOwn (Config.resetCode, Config.resetPayload) := rfl

theorem hostWriteParameter_eq (spec : ParamSpec) (value : F32) :
    hostWriteParameter spec value
      = drainOwn (Config.writeCode, valuePayload spec.index spec.type value) := rfl

/-- A drained call of an idle session returns normally exactly where the transport does not fail. -/
theorem drainOwn_spec (c : Byte × Payload) {s : State} (hidle : s.session.phase = .idle) :
    ∃ t, drainOwn c s = .next t ∧ OnlyHostChanged s t ∧
      t.transport.handed = s.transport.handed ++ [ownForm s c] ∧
      t.session.lastValue = s.session.lastValue ∧ t.session.phase = .idle ∧
      t.session.lastCall
        = some (if s.transport.nextAnswer.sendOk = true ∧ s.transport.nextAnswer.receiveOk = true
          then .done else .transportError) := by
  obtain ⟨t, hrun, hframe, hhanded, -, hvalue, hphase, hcall⟩ :=
    sendAndDrain_spec s
      (packAddress c.1 s.session.address.hostId s.session.address.motorId) c.2 hidle
  rw [packAddress_eq] at hhanded
  refine ⟨t, hrun, hframe, hhanded, hvalue, hphase, hcall.trans ?_⟩
  split_ifs with hok
  · rcases replyOf_of_success hok with hreply | ⟨f, hreply⟩ <;> rw [hreply]
  · rw [replyOf_of_failure hok]

/-- Settles O52: each call is one drained frame, with the code and the payload that the block puts
into its answer. -/
theorem singleFrameCallsHandBuiltFrames : Obligations.SingleFrameCallsHandBuiltFrames := by
  intro s u hidle h m c hc
  suffices hcall : ∃ code p, c.1 = drainOwn (code, p) ∧ exec c.2 u = respondFrame code h m p u by
    obtain ⟨code, p, hhost, hblock⟩ := hcall
    obtain ⟨t, hrun, -, hhanded, hvalue, -, hreturn⟩ := drainOwn_spec (code, p) hidle
    exact ⟨_, p, t, hblock ▸ respondFrame_answers code h m p u, hhost ▸ hrun, hhanded, hvalue,
      hreturn⟩
  simp only [List.mem_cons, List.not_mem_nil, or_false] at hc
  rcases hc with rfl | rfl | rfl
  · exact ⟨_, _, hostEnable_eq, rfl⟩
  · exact ⟨_, _, hostDisable_eq, rfl⟩
  · exact ⟨_, _, hostResetPosition_eq, rfl⟩

/-- Settles O53: the call drains a WRITE with the payload that FRAME.WRITE answers. -/
theorem writeParameterHandsBuiltFrame : Obligations.WriteParameterHandsBuiltFrame := by
  intro s u index t value hidle
  obtain ⟨v, hrun, -, hhanded, hvalue, -, hreturn⟩ :=
    drainOwn_spec (Config.writeCode, valuePayload index t value) hidle
  exact ⟨_, _, v, frameWrite_answers u _ _ index t value, hrun, hhanded, hvalue, hreturn⟩

/-! ### The reply of `read_parameter` (45_host_sequences.md R176, R177) -/

/-- The frame of `read_parameter` as it is handed over. -/
def readForm (s : State) (spec : ParamSpec) : Handed :=
  ownForm s (Config.readCode, parameterPayload spec.index 0#8 0#8 0#8 0#8)

/-- `read_parameter` of an idle session: one exchange, and the end of a read by its reply. -/
theorem hostReadParameter_spec (spec : ParamSpec) {s : State} (hidle : s.session.phase = .idle) :
    ∃ u t, hostReadParameter spec s = .next t ∧ t = u.finishRead (replyOf s true) ∧
      OnlyHostChanged s u ∧ u.session.lastValue = s.session.lastValue ∧ OnlyHostChanged s t ∧
      t.transport.handed = s.transport.handed ++ [readForm s spec] ∧
      t.transport.rxQueue = queueAfter s true ∧ t.session.phase = .idle := by
  obtain ⟨u, t, hrun, ht, hu, hframe, hhanded, hqueue, hvalue, hphase⟩ :=
    sendAndRead_spec s
      (packAddress Config.readCode s.session.address.hostId s.session.address.motorId)
      (parameterPayload spec.index 0#8 0#8 0#8 0#8) hidle
  rw [packAddress_eq] at hhanded
  exact ⟨u, t, hrun, ht, hu, hvalue, hframe, hhanded, hqueue, hphase⟩

section
variable {s : State} {rx : List Byte}

/-- A native reply with a whole window is interpreted as that window. -/
theorem interpretReply_window_native (hbinding : s.params.binding = .native)
    (i0 i1 r0 r1 v0 v1 v2 v3 : Byte) (rest : List Byte) :
    s.interpretReply (i0 :: i1 :: r0 :: r1 :: v0 :: v1 :: v2 :: v3 :: rest)
      = interpretFrame s.rom
          ⟨(i0 ++ i1 : Half), (v3 ++ v2 ++ v1 ++ v0 : Word32), #v[r0, r1]⟩ :=
  answersOnly_respond_iff.1 <|
    exec_decResp_native hbinding _ ▸ decResp_window s i0 i1 r0 r1 v0 v1 v2 v3 rest

/-- A long enough serial reply is interpreted as its window at offset 7. -/
theorem interpretReply_window_serial (hbinding : s.params.binding = .serial)
    {pre : List Byte} (hpre : pre.length = 7) (i0 i1 r0 r1 v0 v1 v2 v3 : Byte) (rest : List Byte)
    (hmin : s.params.serialMinLen ≤
      (pre ++ i0 :: i1 :: r0 :: r1 :: v0 :: v1 :: v2 :: v3 :: rest).length) :
    s.interpretReply (pre ++ i0 :: i1 :: r0 :: r1 :: v0 :: v1 :: v2 :: v3 :: rest)
      = interpretFrame s.rom
          ⟨(i0 ++ i1 : Half), (v3 ++ v2 ++ v1 ++ v0 : Word32), #v[r0, r1]⟩ :=
  answersOnly_respond_iff.1 <|
    exec_decRespSer_serial hbinding _ ▸
      decRespSer_window s i0 i1 r0 r1 v0 v1 v2 v3 rest hpre hmin

/-- A short native reply has no raw value. -/
theorem interpretReply_short_native (hbinding : s.params.binding = .native)
    (hshort : rx.length < 8) : (s.interpretReply rx).rawValue = none := by
  have hanswer := (shortFramesAreIncomplete s rx).1 hshort
  rw [exec_decResp_native hbinding, answersOnly_respond_iff] at hanswer
  rw [hanswer]

/-- A short serial reply has no raw value. -/
theorem interpretReply_short_serial (hbinding : s.params.binding = .serial)
    (hshort : rx.length < s.params.serialMinLen) : (s.interpretReply rx).rawValue = none := by
  have hanswer := (shortFramesAreIncomplete s rx).2 hshort
  rw [exec_decRespSer_serial hbinding, answersOnly_respond_iff] at hanswer
  rw [hanswer]

end

/-- The status passed on with the float of a frame: UNKNOWN_PARAMETER where no row has its index,
nothing otherwise (44_decode.md R147). -/
theorem surfacedStatus_interpretFrame (rom : List ParamSpec) (f : ResponseFrame) :
    surfacedStatus (interpretFrame rom f).status
      = if ∃ row ∈ rom, row.index = f.parameterIndex then none else some .unknownParameter := by
  have hmiss := romFind_eq_none_iff f.parameterIndex 0 rom
  unfold interpretFrame romLookup
  rcases hfind : romFind f.parameterIndex 0 rom with _ | ⟨r, t⟩
  · exact (if_neg (by simpa [hfind] using hmiss)).symm
  · rw [if_pos (by simpa [hfind] using hmiss)]
    cases t <;> rfl

/-- Settles O50: on either binding the oldest frame is interpreted as its window, whose raw value
the read stores and returns. -/
theorem readParameterTakesFloatView : Obligations.ReadParameterTakesFloatView := by
  intro s spec i0 i1 r0 r1 v0 v1 v2 v3 rest q hidle hsend hreceive hbytes
  have holdest : ∃ rx, s.queueAtSend true ++ s.transport.nextAnswer.inWindow = rx :: q ∧
      s.interpretReply rx = interpretFrame s.rom
        ⟨(i0 ++ i1 : Half), (v3 ++ v2 ++ v1 ++ v0 : Word32), #v[r0, r1]⟩ := by
    cases hbinding : s.params.binding with
    | native =>
      rw [hbinding] at hbytes
      exact ⟨_, by rw [queueAtSend_read_native hbinding, List.nil_append, hbytes],
        interpretReply_window_native hbinding ..⟩
    | serial =>
      rw [hbinding] at hbytes
      obtain ⟨pre, hpre, hmin, hqueue⟩ := hbytes
      exact ⟨_, by rw [queueAtSend_read_serial hbinding, hqueue],
        interpretReply_window_serial hbinding hpre _ _ _ _ _ _ _ _ _ hmin⟩
  obtain ⟨rx, hqueue, hanswer⟩ := holdest
  obtain ⟨u, t, hrun, ht, hu, -, -, -, hrest, -⟩ := hostReadParameter_spec spec hidle
  have hread : u.interpretReply rx = _ := (hu.interpretReply_eq rx).trans hanswer
  obtain ⟨-, -, hraw, -⟩ := interpretFrame_reports s.rom
    ⟨(i0 ++ i1 : Half), (v3 ++ v2 ++ v1 ++ v0 : Word32), #v[r0, r1]⟩
  rw [← hread] at hraw
  rw [replyOf_of_cons ⟨hsend, hreceive⟩ hqueue, finishRead_with_raw hraw, hread,
    surfacedStatus_interpretFrame] at ht
  refine ⟨t, hrun, by rw [ht]; rfl, by rw [ht]; rfl, ?_⟩
  simp [hrest, queueAfter, hsend, hreceive, hqueue]

/-- Settles O51: on either binding the reply is a timeout or has no raw value. -/
theorem readParameterReturnsStaleValue : Obligations.ReadParameterReturnsStaleValue := by
  intro s spec hidle hsend hreceive hbytes
  have hok := And.intro hsend hreceive
  have holdest : s.queueAtSend true ++ s.transport.nextAnswer.inWindow = [] ∨
      ∃ rx q, s.queueAtSend true ++ s.transport.nextAnswer.inWindow = rx :: q ∧
        (s.interpretReply rx).rawValue = none := by
    cases hbinding : s.params.binding with
    | native =>
      rw [hbinding] at hbytes
      rw [queueAtSend_read_native hbinding]
      exact hbytes.imp_right fun ⟨rx, q, hqueue, hshort⟩ =>
        ⟨rx, q, hqueue, interpretReply_short_native hbinding hshort⟩
    | serial =>
      rw [hbinding] at hbytes
      rw [queueAtSend_read_serial hbinding]
      exact hbytes.imp_right fun ⟨rx, q, hqueue, hshort⟩ =>
        ⟨rx, q, hqueue, interpretReply_short_serial hbinding hshort⟩
  obtain ⟨u, t, hrun, ht, hu, hvalue, -⟩ := hostReadParameter_spec spec hidle
  have hend : t = u.finishCall s.session.lastValue (.value s.session.lastValue none) := by
    rcases holdest with hempty | ⟨rx, q, hqueue, hraw⟩
    · rw [ht, replyOf_of_empty hok hempty, ← hvalue]
      rfl
    · rw [← hu.interpretReply_eq] at hraw
      rw [ht, replyOf_of_cons hok hqueue, finishRead_without_raw hraw, hvalue]
  exact ⟨t, hrun, by rw [hend]; rfl, by rw [hend]; rfl⟩

end Sys2Proof.Machine
end

section
/-! SUPPORT. The two motion sequences (45_host_sequences.md R180, R181) as lists of drained frames:
how such a list ends, where the transport never fails and where one of its exchanges does. -/

namespace Sys2Proof.Machine

/-! ### A sequence of drained frames (45_host_sequences.md R173) -/

/-- Drained frames one after the other, up to a transport failure. -/
def drainAll : List (Byte × Payload) → State → Host.Outcome State Fault Refusal
  | [], s => .next s
  | [c], s => drainOwn c s
  | c :: cs, s => andThen (drainOwn c s) (drainAll cs)

/-- A sequence completes after `n` exchanges, with these frames handed over, this `last_value` and
this result of its last call. -/
def EndsAfter (s : State) (o : Host.Outcome State Fault Refusal) (n : Nat) (frames : List Handed)
    (lastValue : F32) (r : CallResult) : Prop :=
  ∃ t, o = .next t ∧ t.transport.handed = s.transport.handed ++ frames ∧
    t.transport.answers = s.transport.answers.drop n ∧
    t.transport.exchanges = s.transport.exchanges + n ∧ t.session.lastValue = lastValue ∧
    t.session.lastCall = some r ∧ t.session.phase = .idle

section
variable {s t : State} {f : Handed}

/-- An exchange in which nothing but the host changed, and then the rest of the sequence. -/
theorem EndsAfter.cons {o : Host.Outcome State Fault Refusal} {n : Nat} {frames : List Handed}
    {v : F32} {r : CallResult} (hframe : OnlyHostChanged s t)
    (hhanded : t.transport.handed = s.transport.handed ++ [f]) (h : EndsAfter t o n frames v r) :
    EndsAfter s o (n + 1) (f :: frames) v r := by
  obtain ⟨w, hrun, hw, hanswers, hexchanges, hend⟩ := h
  obtain ⟨-, -, -, -, -, htail, hcount⟩ := hframe
  refine ⟨w, hrun, by simp [hw, hhanded], ?_, ?_, hend⟩
  · rw [hanswers, htail, List.drop_tail]
  · rw [hexchanges, hcount]
    omega

/-- The sequence ends with this exchange. -/
theorem EndsAfter.last {o : Host.Outcome State Fault Refusal} {v : F32} {r : CallResult}
    (hrun : o = .next t) (hframe : OnlyHostChanged s t)
    (hhanded : t.transport.handed = s.transport.handed ++ [f]) (hvalue : t.session.lastValue = v)
    (hcall : t.session.lastCall = some r) (hphase : t.session.phase = .idle) :
    EndsAfter s o 1 [f] v r :=
  .cons (n := 0) hframe hhanded ⟨t, hrun, by simp, rfl, rfl, hvalue, hcall, hphase⟩

/-- The form of a frame rests on what no exchange changes. -/
theorem OnlyHostChanged.ownForm_eq (h : OnlyHostChanged s t) : ownForm t = ownForm s := by
  obtain ⟨-, hparams, -, -, haddress, -⟩ := h
  funext c
  simp only [ownForm, State.handedForm, hparams, haddress]

end

/-- A call that surfaced no failure is followed by the rest of the sequence. -/
theorem andThen_next {s : State} (h : s.session.lastCall ≠ some .transportError)
    (k : State → Host.Outcome State Fault Refusal) : andThen (.next s) k = k s := if_neg h

/-- A call that surfaced a failure ends the sequence. -/
theorem andThen_failed {s : State} (h : s.session.lastCall = some .transportError)
    (k : State → Host.Outcome State Fault Refusal) : andThen (.next s) k = .next s := if_pos h

/-- A sequence goes on after its first frame, but for a transport failure. -/
theorem drainAll_cons (c : Byte × Payload) (cs : List (Byte × Payload)) (s : State) :
    drainAll (c :: cs) s = andThen (drainOwn c s) (drainAll cs) := by
  cases cs with
  | nil =>
    change drainOwn c s = andThen (drainOwn c s) .next
    cases drainOwn c s with
    | next t => exact (ite_self _).symm
    | fault r => rfl
    | refused r => rfl
  | cons d ds => rfl

/-- Where no exchange fails, every frame of the sequence is handed over. -/
theorem drainAll_ok {cs : List (Byte × Payload)} (hne : cs ≠ []) {s : State}
    (hidle : s.session.phase = .idle)
    (hok : ∀ a ∈ s.transport.upcoming cs.length, a.sendOk = true ∧ a.receiveOk = true) :
    EndsAfter s (drainAll cs s) cs.length (cs.map (ownForm s)) s.session.lastValue .done := by
  induction cs generalizing s with
  | nil => exact absurd rfl hne
  | cons c cs ih =>
    obtain ⟨t, hrun, hframe, hhanded, hvalue, hphase, hcall⟩ := drainOwn_spec c hidle
    rw [List.length_cons, upcoming_of_onlyHostChanged hframe, List.forall_mem_cons] at hok
    obtain ⟨hnow, hlater⟩ := hok
    rw [if_pos hnow] at hcall
    by_cases hlast : cs = []
    · subst hlast
      exact .last hrun hframe hhanded hvalue hcall hphase
    · have hrest := ih hlast hphase hlater
      rw [hvalue, hframe.ownForm_eq] at hrest
      rw [drainAll_cons, hrun, andThen_next (by simp [hcall])]
      exact hrest.cons hframe hhanded

/-- Where an exchange fails, the sequence ends with it. -/
theorem drainAll_failed {cs : List (Byte × Payload)} {s : State} {before : List Answer}
    {bad : Answer} (hidle : s.session.phase = .idle)
    (hanswers : s.transport.upcoming (before.length + 1) = before ++ [bad])
    (hok : ∀ a ∈ before, a.sendOk = true ∧ a.receiveOk = true)
    (hbad : ¬(bad.sendOk = true ∧ bad.receiveOk = true)) (hlen : before.length < cs.length) :
    EndsAfter s (drainAll cs s) (before.length + 1)
      ((cs.map (ownForm s)).take (before.length + 1)) s.session.lastValue .transportError := by
  induction before generalizing cs s with
  | nil =>
    obtain ⟨c, cs, rfl⟩ := List.exists_cons_of_length_pos hlen
    obtain ⟨t, hrun, hframe, hhanded, hvalue, hphase, hcall⟩ := drainOwn_spec c hidle
    obtain ⟨hnow, -⟩ := List.cons.inj hanswers
    rw [hnow, if_neg hbad] at hcall
    rw [drainAll_cons, hrun, andThen_failed hcall]
    exact .last rfl hframe hhanded hvalue hcall hphase
  | cons a before ih =>
    obtain ⟨c, cs, rfl⟩ := List.exists_cons_of_length_pos (Nat.zero_lt_of_lt hlen)
    obtain ⟨t, hrun, hframe, hhanded, hvalue, hphase, hcall⟩ := drainOwn_spec c hidle
    rw [List.length_cons, upcoming_of_onlyHostChanged hframe] at hanswers
    obtain ⟨hnow, hlater⟩ := List.cons.inj hanswers
    rw [List.forall_mem_cons] at hok
    rw [hnow, if_pos hok.1] at hcall
    have hrest := ih hphase hlater hok.2 (Nat.lt_of_succ_lt_succ hlen)
    rw [hvalue, hframe.ownForm_eq] at hrest
    rw [drainAll_cons, hrun, andThen_next (by simp [hcall])]
    exact hrest.cons hframe hhanded

/-! ### `set_velocity` (45_host_sequences.md R181) -/

/-- A WRITE of an f32 parameter whose index begins with the byte `b`. -/
def floatFrame (b : Byte) (v : F32) : Byte × Payload :=
  (18#8, #v[b, 0x70, 0, 0, v.extractLsb' 0 8, v.extractLsb' 8 8, v.extractLsb' 16 8,
    v.extractLsb' 24 8])

/-- A WRITE of a mode to `RUN_MODE`. -/
def modeFrame (b : Byte) : Byte × Payload := (18#8, #v[0x05, 0x70, 0, 0, b, 0, 0, 0])

def enableFrame : Byte × Payload := (3#8, #v[0, 0, 0, 0, 0, 0, 0, 0])

/-- The frames of `set_velocity`. -/
def velocityFrames (target maxAcc maxCurrent : F32) : List (Byte × Payload) :=
  [modeFrame 2, enableFrame, floatFrame 0x18 maxCurrent, floatFrame 0x22 maxAcc,
    floatFrame 0x0A target]

/-- The f32 values of the two modes convert to the bytes 1 and 2 (45_host_sequences.md R182). -/
theorem cvt_modes : cvt 8 Config.positionMode = 1#8 ∧ cvt 8 Config.velocityMode = 2#8 := by
  decide

theorem write_mode {v : F32} {b : Byte} (h : cvt 8 v = b) :
    hostWriteParameter Config.runMode v = drainOwn (modeFrame b) := by
  subst h
  rfl

theorem hostSetVelocity_eq (target maxAcc maxCurrent : F32) (s : State) :
    hostSetVelocity target maxAcc maxCurrent s
      = drainAll (velocityFrames target maxAcc maxCurrent) s := by
  rw [hostSetVelocity, write_mode cvt_modes.2]
  rfl

/-- Settles O55: the five frames are a sequence of drained frames in which no exchange fails. -/
theorem setVelocityHandsFiveFrames : Obligations.SetVelocityHandsFiveFrames := by
  intro s target maxAcc maxCurrent hidle hok h m write float
  obtain ⟨t, hrun, hhanded, -, -, hvalue, hcall, hphase⟩ :=
    drainAll_ok (cs := velocityFrames target maxAcc maxCurrent) (List.cons_ne_nil _ _) hidle hok
  exact ⟨t, (hostSetVelocity_eq ..).trans hrun, hhanded, hvalue, hcall, hphase⟩

/-! ### `set_position` (45_host_sequences.md R180) -/

/-- The frames of `set_position` behind its read. -/
def moveFrames (folded speed maxAcc : F32) : List (Byte × Payload) :=
  [modeFrame 1, enableFrame, floatFrame 0x17 speed, floatFrame 0x24 speed, floatFrame 0x25 maxAcc,
    floatFrame 0x16 folded]

theorem hostMoveTo_eq (folded speed maxAcc : F32) (s : State) :
    hostMoveTo folded speed maxAcc s = drainAll (moveFrames folded speed maxAcc) s := by
  rw [hostMoveTo, write_mode cvt_modes.1]
  rfl

/-- The read of an idle session surfaces a failure exactly where the transport fails. -/
theorem hostReadParameter_call (spec : ParamSpec) {s : State} (hidle : s.session.phase = .idle) :
    ∃ t, hostReadParameter spec s = .next t ∧ OnlyHostChanged s t ∧
      t.transport.handed = s.transport.handed ++ [readForm s spec] ∧ t.session.phase = .idle ∧
      (s.transport.nextAnswer.sendOk = true ∧ s.transport.nextAnswer.receiveOk = true →
        t.session.lastCall ≠ some .transportError) ∧
      (¬(s.transport.nextAnswer.sendOk = true ∧ s.transport.nextAnswer.receiveOk = true) →
        t.session.lastCall = some .transportError ∧
          t.session.lastValue = s.session.lastValue) := by
  obtain ⟨u, t, hrun, rfl, -, hvalue, hframe, hhanded, -, hphase⟩ :=
    hostReadParameter_spec spec hidle
  refine ⟨_, hrun, hframe, hhanded, hphase, fun hok => ?_, fun hfailed => ?_⟩
  · rcases replyOf_of_success hok with hreply | ⟨rx, hreply⟩ <;> rw [hreply]
    · simp [State.finishRead]
    · cases hraw : (u.interpretReply rx).rawValue with
      | none => simp [finishRead_without_raw hraw]
      | some w => simp [finishRead_with_raw hraw]
  · rw [replyOf_of_failure hfailed]
    exact ⟨rfl, hvalue⟩

/-- There is no folded target exactly where an input is a NaN or an infinity
(93_implementation_defined.md U9). -/
theorem foldTarget_eq_none_iff (arith : FoldArith) (current target : F32) :
    foldTarget arith current target = none ↔
      f32Value current = none ∨ f32Value target = none := by
  unfold foldTarget
  cases f32Value current with
  | none => simp
  | some c =>
    cases f32Value target with
    | none => simp
    | some t => cases h : foldSteps arith c t <;> simp [h]

section
variable {s u : State} (speed maxAcc : F32)
  (hread : hostReadParameter Config.mechPos s = .next u)
include hread

/-- A failed read ends `set_position`. -/
theorem hostSetPosition_failed (target : F32)
    (hcall : u.session.lastCall = some .transportError) :
    hostSetPosition target speed maxAcc s = .next u := by
  rw [hostSetPosition, hread, andThen_failed hcall]

variable {target : F32} (hcall : u.session.lastCall ≠ some .transportError)
include hcall

/-- Without a folded target `set_position` is refused. -/
theorem hostSetPosition_refused
    (hfold : foldTarget u.params.foldArith u.session.lastValue target = none) :
    hostSetPosition target speed maxAcc s = .refused .foldNotFinite := by
  rw [hostSetPosition, hread, andThen_next hcall, hfold]

/-- With one, the six frames of the move follow the read. -/
theorem hostSetPosition_folded {folded : F32}
    (hfold : foldTarget u.params.foldArith u.session.lastValue target = some folded) :
    hostSetPosition target speed maxAcc s = drainAll (moveFrames folded speed maxAcc) u := by
  rw [hostSetPosition, hread, andThen_next hcall, hfold]
  exact hostMoveTo_eq ..

end

/-- Two finite inputs have a folded target. -/
theorem exists_foldTarget (arith : FoldArith) {current target : F32}
    (hcurrent : f32Value current ≠ none) (htarget : f32Value target ≠ none) :
    ∃ folded, foldTarget arith current target = some folded :=
  Option.ne_none_iff_exists'.1 fun hnone =>
    ((foldTarget_eq_none_iff ..).1 hnone).elim hcurrent htarget

/-- Settles O56: the read, the fold of what it returned, and six drained frames of which none
fails. -/
theorem setPositionHandsSevenFrames : Obligations.SetPositionHandsSevenFrames := by
  intro s target speed maxAcc hidle hsend hreceive h m write float
  obtain ⟨u, hread, hframe, hhanded, hphase, hcall, -⟩ :=
    hostReadParameter_call Config.mechPos hidle
  replace hcall := hcall ⟨hsend, hreceive⟩
  have hparams : u.params = s.params := hframe.2.1
  refine ⟨u, hread, fun hnone => ?_, fun hcurrent htarget hok => ?_⟩
  · exact hostSetPosition_refused speed maxAcc hread hcall ((foldTarget_eq_none_iff ..).2 hnone)
  · obtain ⟨folded, hfold⟩ := exists_foldTarget s.params.foldArith hcurrent htarget
    rw [upcoming_of_onlyHostChanged hframe, List.forall_mem_cons] at hok
    have hmove := drainAll_ok (cs := moveFrames folded speed maxAcc) (List.cons_ne_nil _ _) hphase
      hok.2
    rw [hframe.ownForm_eq] at hmove
    obtain ⟨t, hrun, hframes, -, -, hvalue, hend, hdone⟩ := hmove.cons hframe hhanded
    exact ⟨folded, t, hfold,
      (hostSetPosition_folded speed maxAcc hread hcall (hparams ▸ hfold)).trans hrun, hframes,
      hvalue, hend, hdone⟩

/-- Settles O57: a drained sequence ends with its failing exchange; `set_position` is such a
sequence behind its read, which may fail itself. -/
theorem sequencesEndOnTransportFailure : Obligations.SequencesEndOnTransportFailure := by
  intro s before bad hidle hanswers hok hbad h m write enable mode float read endsAfter
  obtain ⟨u, hread, hframe, hhanded, hphase, hsucceeded, hfailed⟩ :=
    hostReadParameter_call Config.mechPos hidle
  have hparams : u.params = s.params := hframe.2.1
  refine ⟨fun target maxAcc maxCurrent hlen => ?_, ?_, ?_⟩
  · have hend := drainAll_failed (cs := velocityFrames target maxAcc maxCurrent) hidle hanswers hok
      hbad hlen
    exact hostSetVelocity_eq target maxAcc maxCurrent s ▸ hend
  · rintro target speed maxAcc rfl
    obtain ⟨hnow, -⟩ := List.cons.inj hanswers
    obtain ⟨hcall, hvalue⟩ := hfailed (hnow ▸ hbad)
    exact EndsAfter.last (hostSetPosition_failed speed maxAcc hread target hcall) hframe hhanded
      hvalue hcall hphase
  · intro target speed maxAcc hpos hlen
    refine ⟨u, hread, fun hcurrent htarget => ?_⟩
    obtain ⟨folded, hfold⟩ := exists_foldTarget s.params.foldArith hcurrent htarget
    obtain ⟨a, later, rfl⟩ := List.exists_cons_of_length_pos hpos
    rw [List.length_cons, upcoming_of_onlyHostChanged hframe] at hanswers
    obtain ⟨hnow, hrest⟩ := List.cons.inj hanswers
    rw [List.forall_mem_cons] at hok
    have hend := drainAll_failed (cs := moveFrames folded speed maxAcc) hphase hrest hok.2 hbad
      (Nat.lt_of_succ_lt_succ hlen)
    rw [hframe.ownForm_eq] at hend
    have hrun := hostSetPosition_folded speed maxAcc hread (hsucceeded (hnow ▸ hok.1))
      (hparams ▸ hfold)
    exact ⟨folded, hfold, hrun ▸ hend.cons hframe hhanded⟩

end Sys2Proof.Machine
end

section
/-! SUPPORT. The fold of `set_position` (45_host_sequences.md R180): rounding is to nearest, the two
steps from their intermediate results, and how far rounding carries them from the exact law. -/

namespace Sys2Proof.Machine

/-! ### Rounding to nearest (log entry 13) -/

section
variable {fmt : FloatFormat} {q v w : Rat}

/-- No multiple of the spacing around a number is nearer to it than its rounding. -/
theorem round_nearest_multiple (h : fmt.round q = some v) (hq : q ≠ 0) (m : Int) :
    |v - q| ≤ |m * (2 : Rat) ^ fmt.spacing q - q| := by
  have hpos := pow2_pos (fmt.spacing q)
  have hscale (k : Int) : |(k : Rat) * pow2 (fmt.spacing q) - q|
      = |(k : Rat) - q / pow2 (fmt.spacing q)| * pow2 (fmt.spacing q) := by
    rw [← abs_of_pos hpos, ← abs_mul, abs_of_pos hpos, sub_mul, div_mul_cancel₀ q hpos.ne']
  rw [(round_eq_some h hq).1, ← pow2_eq, hscale, hscale]
  exact mul_le_mul_of_nonneg_right (roundEven_nearest _ m) hpos.le

/-- A number of the format is a multiple of the spacing around `q`, or lies below the power of two
under `q`, which is such a multiple. -/
theorem FloatFormat.Has.multiple_or_below (hw : fmt.Has w) (q : Rat) :
    (∃ m : Int, w = m * (2 : Rat) ^ fmt.spacing q) ∨
      |w| < (2 : Rat) ^ ilog2 |q| ∧ fmt.spacing q = ilog2 |q| - (fmt.precision - 1 : Int) := by
  obtain ⟨m, e, hm, he, rfl⟩ := hw
  by_cases hcoarse : fmt.spacing q ≤ e
  · obtain ⟨k, rfl⟩ := Int.le.dest hcoarse
    exact .inl ⟨m * 2 ^ k, by rw [zpow_add₀ (by norm_num), zpow_natCast]; push_cast; ring⟩
  · have hspacing : fmt.spacing q = ilog2 |q| - (fmt.precision - 1 : Int) := by
      unfold FloatFormat.spacing at hcoarse ⊢
      omega
    refine .inr ⟨?_, hspacing⟩
    have hm' : |(m : Rat)| < (2 : Rat) ^ (fmt.precision : Int) := by
      rw [zpow_natCast]
      exact_mod_cast hm
    calc |(m : Rat) * (2 : Rat) ^ e| = |(m : Rat)| * (2 : Rat) ^ e := by
          rw [abs_mul, abs_of_pos (a := (2 : Rat) ^ e) (by positivity)]
      _ < (2 : Rat) ^ (fmt.precision : Int) * (2 : Rat) ^ e :=
          mul_lt_mul_of_pos_right hm' (by positivity)
      _ = (2 : Rat) ^ (fmt.precision + e) := (zpow_add₀ (by norm_num) _ _).symm
      _ ≤ (2 : Rat) ^ ilog2 |q| := zpow_le_zpow_right₀ (by norm_num) (by omega)

/-- No number of the format is nearer than the rounding. -/
theorem round_nearest (hp : 0 < fmt.precision) (h : fmt.round q = some v) (hw : fmt.Has w) :
    |v - q| ≤ |w - q| := by
  by_cases hq : q = 0
  · obtain rfl : v = 0 := by simpa [FloatFormat.round, hq, eq_comm] using h
    simp [hq]
  rcases hw.multiple_or_below q with ⟨m, rfl⟩ | ⟨hsmall, hspacing⟩
  · exact round_nearest_multiple h hq m
  · have hpower : (2 : Rat) ^ (fmt.precision - 1) * (2 : Rat) ^ fmt.spacing q
        = (2 : Rat) ^ ilog2 |q| := by
      rw [← zpow_natCast, ← zpow_add₀ (by norm_num), hspacing]
      congr 1
      omega
    have hbelow := (ilog2_spec (abs_pos.2 hq)).1
    have hgap : |v - q| ≤ |q| - (2 : Rat) ^ ilog2 |q| := by
      rcases lt_or_gt_of_ne hq with hneg | hpos
      · have hnear := round_nearest_multiple h hq (-2 ^ (fmt.precision - 1))
        push_cast at hnear
        rw [neg_mul, hpower] at hnear
        rw [abs_of_neg hneg] at hbelow hnear ⊢
        exact hnear.trans_eq (by rw [abs_of_nonneg (by linarith)]; ring)
      · have hnear := round_nearest_multiple h hq (2 ^ (fmt.precision - 1))
        push_cast at hnear
        rw [hpower] at hnear
        rw [abs_of_pos hpos] at hbelow hnear ⊢
        exact hnear.trans_eq (by rw [abs_of_nonpos (by linarith)]; ring)
    have htriangle := abs_sub_abs_le_abs_sub q w
    rw [abs_sub_comm q w] at htriangle
    linarith

end

/-- What the two intermediate formats have in common: the single format's bounds. -/
theorem foldFormat_bounds (arith : FoldArith) :
    24 ≤ (foldFormat arith).precision ∧ (foldFormat arith).minExponent ≤ -149 ∧
      128 ≤ (foldFormat arith).maxExponent := by
  cases arith <;> decide

/-- In either format a number below `2^127` is rounded. -/
theorem foldRound_isSome (arith : FoldArith) {q : Rat} (hq : |q| < 2 ^ 127) :
    ∃ v, (foldFormat arith).round q = some v := by
  obtain ⟨-, -, hmax⟩ := foldFormat_bounds arith
  refine round_isSome ?_
  calc |q| * 2 < 2 ^ 127 * 2 := mul_lt_mul_of_pos_right hq (by norm_num)
    _ = (2 : Rat) ^ (128 : Int) := by norm_num
    _ ≤ (2 : Rat) ^ (foldFormat arith).maxExponent := zpow_le_zpow_right₀ (by norm_num) hmax

/-- Settles O58: a result is a number of its format, and none is nearer. -/
theorem foldRoundsToNearest : Obligations.FoldRoundsToNearest := by
  intro arith q
  have hprecision : 0 < (foldFormat arith).precision :=
    Nat.lt_of_lt_of_le (by decide) (foldFormat_bounds arith).1
  exact ⟨fun v hv => ⟨round_has hv hprecision, fun w hw => round_nearest hprecision hv hw⟩,
    foldRound_isSome arith⟩

/-! ### The two steps from their intermediate results -/

theorem foldPi_single : foldPi .single = 13176795 / 2 ^ 22 := by
  rw [foldPi, Rat.mkRat_eq_div]
  norm_num

theorem foldPi_double : foldPi .double = 7074237752028440 / 2 ^ 51 := by
  rw [foldPi, Rat.mkRat_eq_div]
  norm_num

theorem foldPi_bounds (arith : FoldArith) : 3 < foldPi arith ∧ foldPi arith < 16 / 5 := by
  cases arith with
  | single => rw [foldPi_single]; norm_num
  | double => rw [foldPi_double]; norm_num

/-- The nearest integer is the turns' whole part or the next, a tie going by the free rule. -/
theorem roundTurns_eq {q : Rat} {n : Int}
    (h : |q - n| < 1 / 2 ∨
      |q - n| = 1 / 2 ∧ n = if Config.foldTieUp ⌊q⌋ then ⌊q⌋ + 1 else ⌊q⌋) : roundTurns q = n := by
  rcases h with hnear | ⟨htie, hn⟩
  · have hclose : |(roundTurns q : Rat) - n| < 1 := by
      have := abs_sub_le (roundTurns q : Rat) q n
      have := roundTurns_error q
      linarith
    have hzero : |roundTurns q - n| < 1 := by exact_mod_cast hclose
    exact sub_eq_zero.1 (Int.abs_lt_one_iff.1 hzero)
  · have hhalf : q - (⌊q⌋ : Int) = 1 / 2 := by
      have hfloor := Int.floor_le q
      have hnext := Int.lt_floor_add_one q
      rcases abs_eq (by norm_num : (0 : Rat) ≤ 1 / 2) |>.1 htie with hsign | hsign <;>
        split_ifs at hn <;> subst hn <;> push_cast at hsign <;> linarith
    simp only [roundTurns, wholePart_eq, hhalf, lt_irrefl, if_false]
    exact hn.symm

section
variable {arith : FoldArith} {c t delta stepped back turns move folded v : Rat}

/-- Step 1, by the three places the difference can lie in: no difference is above `π` and below
`-π`. -/
theorem foldStep1_eq_some (hdelta : (foldFormat arith).round (t - c) = some delta)
    (hdown : foldPi arith < delta →
      (foldFormat arith).round (t - 2 * foldPi arith) = some stepped)
    (hup : delta < -foldPi arith →
      (foldFormat arith).round (t + 2 * foldPi arith) = some stepped)
    (hstay : ¬foldPi arith < delta → ¬delta < -foldPi arith → stepped = t) :
    foldStep1 arith c t = some stepped := by
  have hpi := (foldPi_bounds arith).1
  unfold foldStep1
  by_cases habove : foldPi arith < delta
  · have hbelow : ¬delta < -foldPi arith := by linarith
    simp [hdelta, habove, hbelow, hdown habove]
  · by_cases hbelow : delta < -foldPi arith
    · simp [hdelta, habove, hbelow, hup hbelow]
    · simp [hdelta, habove, hbelow, hstay habove hbelow]

/-- Step 2. -/
theorem foldStep2_eq_some (hback : (foldFormat arith).round (c - t) = some back)
    (hturns : (foldFormat arith).round (back / (2 * foldPi arith)) = some turns)
    (hmove : (foldFormat arith).round (roundTurns turns * (2 * foldPi arith)) = some move)
    (hfolded : (foldFormat arith).round (t + move) = some folded) :
    foldStep2 arith c t = some folded := by
  simp [foldStep2, hback, hturns, hmove, hfolded]

/-- Both steps, and the f32 of what they give. -/
theorem foldTarget_of_steps {current target : F32} (hcurrent : f32Value current = some c)
    (htarget : f32Value target = some t) (hstep1 : foldStep1 arith c t = some stepped)
    (hstep2 : foldStep2 arith c stepped = some folded)
    (hround : FloatFormat.single.round folded = some v) :
    ∃ f, foldTarget arith current target = some f ∧ f32Value f = some v := by
  refine ⟨f32Pattern v (Config.foldZeroNegative current target), ?_, f32Value_round hround _⟩
  have hsteps : foldSteps arith c t = some v := by simp [foldSteps, hstep1, hstep2, hround]
  simp only [foldTarget, hcurrent, htarget, hsteps]

end

/-- Settles O59: the intermediate results of the statement are those of the two steps. -/
theorem foldRunsBothSteps : Obligations.FoldRunsBothSteps := by
  intro arith current target
  refine ⟨foldTarget_eq_none_iff arith current target, ?_⟩
  intro c t delta stepped back turns move folded v n pi rounds hcurrent htarget hdelta hdown hup
    hstay hback hturns hn hmove hfolded hround
  have hpi : pi = foldPi arith := by
    cases arith with
    | single => exact foldPi_single.symm
    | double => exact foldPi_double.symm
  rw [hpi] at hdown hup hstay hturns hmove
  rw [← roundTurns_eq hn] at hmove
  exact foldTarget_of_steps hcurrent htarget (foldStep1_eq_some hdelta hdown hup hstay)
    (foldStep2_eq_some hback hturns hmove hfolded) hround

/-! ### The shortest-path law (92_eei_decisions.md D27) -/

/-- In either format a number of magnitude at most `b` is rounded with an error of little more than
`b` in units of `2^-24`. -/
theorem foldRound_error (arith : FoldArith) {q b : Rat} (hq : |q| ≤ b) (hb : b < 2 ^ 127) :
    ∃ v, (foldFormat arith).round q = some v ∧ |v - q| ≤ (b + 1) / 2 ^ 24 := by
  obtain ⟨v, hv⟩ := foldRound_isSome arith (hq.trans_lt hb)
  obtain ⟨hprecision, hmin, -⟩ := foldFormat_bounds arith
  have hrelative : (2 : Rat) ^ (-((foldFormat arith).precision : Int)) ≤ 2 ^ (-24 : Int) :=
    zpow_le_zpow_right₀ (by norm_num) (by omega)
  have habsolute : (2 : Rat) ^ ((foldFormat arith).minExponent - 1) ≤ 2 ^ (-24 : Int) :=
    zpow_le_zpow_right₀ (by norm_num) (by omega)
  refine ⟨v, hv, ?_⟩
  calc |v - q| ≤ |q| * 2 ^ (-((foldFormat arith).precision : Int))
        + 2 ^ ((foldFormat arith).minExponent - 1) := round_error hv
    _ ≤ b * 2 ^ (-24 : Int) + 2 ^ (-24 : Int) :=
        add_le_add (mul_le_mul hq hrelative (by positivity) ((abs_nonneg q).trans hq)) habsolute
    _ = (b + 1) / 2 ^ 24 := by norm_num; ring

theorem abs_le_of_near {x y b e : Rat} (hy : |y| ≤ b) (h : |x - y| ≤ e) : |x| ≤ b + e := by
  have := abs_sub_abs_le_abs_sub x y
  linarith

section
variable (arith : FoldArith) {c t : Rat}

/-- A number of turns as an angle. -/
theorem abs_turns_le {n b : Rat} (hn : |n| ≤ b) : |n * (2 * foldPi arith)| ≤ b * (32 / 5) := by
  obtain ⟨hpi, hpi'⟩ := foldPi_bounds arith
  rw [abs_mul, abs_of_pos (a := 2 * foldPi arith) (by linarith)]
  exact mul_le_mul hn (by linarith) (by linarith) ((abs_nonneg n).trans hn)

/-- A target moved by at most one turn, rounded. -/
theorem foldRound_turned (ht : |t| ≤ 1024) {j : Rat} (hj : |j| ≤ 1) :
    ∃ stepped, (foldFormat arith).round (t + j * (2 * foldPi arith)) = some stepped ∧
      |stepped| ≤ 1031 ∧ |stepped - (t + j * (2 * foldPi arith))| ≤ 1032 / 2 ^ 24 := by
  have hexact : |t + j * (2 * foldPi arith)| ≤ 10304 / 10 := by
    have := abs_add_le t (j * (2 * foldPi arith))
    have := abs_turns_le arith hj
    linarith
  obtain ⟨stepped, hround, herror⟩ := foldRound_error arith hexact (by norm_num)
  have := abs_le_of_near hexact herror
  exact ⟨stepped, hround, by linarith, by linarith⟩

/-- Step 1 moves the target by at most one turn, up to rounding. -/
theorem foldStep1_error (hc : |c| ≤ 1024) (ht : |t| ≤ 1024) :
    ∃ stepped : Rat, ∃ j : Int, foldStep1 arith c t = some stepped ∧ |j| ≤ 1 ∧
      |stepped| ≤ 1031 ∧ |stepped - (t + j * (2 * foldPi arith))| ≤ 1032 / 2 ^ 24 := by
  have hpi := (foldPi_bounds arith).1
  obtain ⟨delta, hdelta, -⟩ := foldRound_error arith (q := t - c) (b := 2048)
    ((abs_sub t c).trans (by linarith)) (by norm_num)
  by_cases habove : foldPi arith < delta
  · obtain ⟨stepped, hround, hsize, herror⟩ := foldRound_turned arith ht (j := (-1 : Int)) (by simp)
    refine ⟨stepped, -1, foldStep1_eq_some hdelta (fun _ => ?_) (fun hbelow => ?_)
      (absurd habove), by decide, hsize, herror⟩
    · rw [← hround]
      push_cast
      ring_nf
    · linarith
  by_cases hbelow : delta < -foldPi arith
  · obtain ⟨stepped, hround, hsize, herror⟩ := foldRound_turned arith ht (j := (1 : Int)) (by simp)
    refine ⟨stepped, 1, foldStep1_eq_some hdelta (fun h => absurd h habove) (fun _ => ?_)
      (fun _ h => absurd hbelow h), by decide, hsize, herror⟩
    rw [← hround, Int.cast_one, one_mul]
  · refine ⟨t, 0, foldStep1_eq_some hdelta (fun h => absurd h habove) (fun h => absurd h hbelow)
      (fun _ _ => rfl), by decide, by linarith, ?_⟩
    norm_num

/-- Step 2 moves the target by whole turns to within half a turn of the position, up to rounding. -/
theorem foldStep2_error (hc : |c| ≤ 1024) (ht : |t| ≤ 1031) :
    ∃ folded : Rat, ∃ n : Int, foldStep2 arith c t = some folded ∧ |(n : Rat)| ≤ 344 ∧
      |folded| ≤ 3235 ∧ |folded - (t + n * (2 * foldPi arith))| ≤ 5440 / 2 ^ 24 ∧
      |folded - c| ≤ foldPi arith + 9700 / 2 ^ 24 := by
  obtain ⟨hpi, hpi'⟩ := foldPi_bounds arith
  have hturn : (0 : Rat) < 2 * foldPi arith := by linarith
  have hexactBack : |c - t| ≤ 2055 := (abs_sub c t).trans (by linarith)
  obtain ⟨back, hback, hbackError⟩ := foldRound_error arith hexactBack (by norm_num)
  have hexactTurns : |back / (2 * foldPi arith)| ≤ 343 := by
    have := abs_le_of_near hexactBack hbackError
    rw [abs_div, abs_of_pos hturn, div_le_iff₀ hturn]
    linarith
  obtain ⟨turns, hturns, hturnsError⟩ := foldRound_error arith hexactTurns (by norm_num)
  set n := roundTurns turns
  have hnError : |(n : Rat) - back / (2 * foldPi arith)| ≤ 1 / 2 + 344 / 2 ^ 24 := by
    have := abs_sub_le (n : Rat) turns (back / (2 * foldPi arith))
    have := roundTurns_error turns
    linarith
  have hnSize : |(n : Rat)| ≤ 344 := by
    have := abs_le_of_near hexactTurns hnError
    linarith
  have hexactMove := abs_turns_le arith hnSize
  obtain ⟨move, hmove, hmoveError⟩ := foldRound_error arith hexactMove (by norm_num)
  have hexactFolded : |t + move| ≤ 3233 := by
    have := abs_add_le t move
    have := abs_le_of_near hexactMove hmoveError
    linarith
  obtain ⟨folded, hfolded, hfoldedError⟩ := foldRound_error arith hexactFolded (by norm_num)
  have hfoldedSize := abs_le_of_near hexactFolded hfoldedError
  have hcongruent : |folded - (t + n * (2 * foldPi arith))| ≤ 5440 / 2 ^ 24 := by
    have := abs_sub_le folded (t + move) (t + n * (2 * foldPi arith))
    rw [add_sub_add_left_eq_sub] at this
    linarith
  have hhalf : |n * (2 * foldPi arith) - back| ≤ foldPi arith + 2204 / 2 ^ 24 := by
    have hscaled := mul_le_mul_of_nonneg_right hnError hturn.le
    rw [← abs_of_pos hturn, ← abs_mul, abs_of_pos hturn, sub_mul, div_mul_cancel₀ _ hturn.ne']
      at hscaled
    linarith
  refine ⟨folded, n, foldStep2_eq_some hback hturns hmove hfolded, hnSize, by linarith, hcongruent,
    ?_⟩
  have hsplit : folded - c = (folded - (t + n * (2 * foldPi arith)))
      + (n * (2 * foldPi arith) - back) + (back - (c - t)) := by ring
  rw [hsplit]
  have := abs_add_three (folded - (t + n * (2 * foldPi arith)))
    (n * (2 * foldPi arith) - back) (back - (c - t))
  linarith

/-- The fold of moderate numbers, with the format's own `π`. -/
theorem foldSteps_error (hc : |c| ≤ 1024) (ht : |t| ≤ 1024) :
    ∃ stepped folded v : Rat, ∃ k : Int, foldStep1 arith c t = some stepped ∧
      foldStep2 arith c stepped = some folded ∧ FloatFormat.single.round folded = some v ∧
      |(k : Rat)| ≤ 345 ∧ |v - (t + k * (2 * foldPi arith))| ≤ 9720 / 2 ^ 24 ∧
      |v - c| ≤ foldPi arith + 12950 / 2 ^ 24 := by
  obtain ⟨stepped, j, hstep1, hj, hsteppedSize, hsteppedError⟩ := foldStep1_error arith hc ht
  obtain ⟨folded, n, hstep2, hn, hfoldedSize, hfoldedError, hfoldedNear⟩ :=
    foldStep2_error arith hc hsteppedSize
  obtain ⟨v, hv, hvError⟩ := foldRound_error .single hfoldedSize (by norm_num)
  refine ⟨stepped, folded, v, j + n, hstep1, hstep2, hv, ?_, ?_, ?_⟩
  · have hj' : |(j : Rat)| ≤ 1 := by exact_mod_cast hj
    have := abs_add_le (j : Rat) n
    push_cast
    linarith
  · have hsplit : v - (t + (j + n : Int) * (2 * foldPi arith)) = (v - folded)
        + (folded - (stepped + n * (2 * foldPi arith)))
        + (stepped - (t + j * (2 * foldPi arith))) := by
      push_cast
      ring
    rw [hsplit]
    have := abs_add_three (v - folded) (folded - (stepped + n * (2 * foldPi arith)))
      (stepped - (t + j * (2 * foldPi arith)))
    linarith
  · have := abs_sub_le v folded c
    linarith

end

/-- Both formats' `π` is the real one to seven digits. -/
theorem foldPi_error (arith : FoldArith) : |(foldPi arith : ℝ) - Real.pi| ≤ 1 / 10 ^ 7 := by
  have hlow := Real.pi_gt_d20
  have hhigh := Real.pi_lt_d20
  rw [abs_le]
  cases arith with
  | single =>
    rw [foldPi_single]
    push_cast
    constructor <;> linarith
  | double =>
    rw [foldPi_double]
    push_cast
    constructor <;> linarith

/-- Settles O60: the law with the format's own `π`, which is off by less than rounding is. -/
theorem foldKeepsShortestPathLaw : Obligations.FoldKeepsShortestPathLaw := by
  intro arith current target c t hcurrent htarget hc ht
  obtain ⟨stepped, folded, v, k, hstep1, hstep2, hround, hk, hcongruent, hnear⟩ :=
    foldSteps_error arith hc ht
  obtain ⟨f, hfold, hf⟩ := foldTarget_of_steps hcurrent htarget hstep1 hstep2 hround
  have hpi := foldPi_error arith
  have hnearReal := (Rat.cast_le (K := ℝ)).2 hnear
  have hcongruentReal := (Rat.cast_le (K := ℝ)).2 hcongruent
  push_cast at hnearReal hcongruentReal
  have hkReal : |(k : ℝ)| ≤ 345 := by exact_mod_cast hk
  refine ⟨f, v, k, hfold, hf, ?_, ?_⟩
  · have := (abs_le.1 hpi).2
    linarith
  · have hturns : |(k : ℝ) * (2 * foldPi arith) - k * (2 * Real.pi)| ≤ 345 * (2 / 10 ^ 7) := by
      rw [← mul_sub, ← mul_sub, abs_mul, abs_mul, abs_two]
      exact mul_le_mul hkReal (by linarith) (by positivity) (by norm_num)
    have := abs_sub_le (v : ℝ) (t + k * (2 * foldPi arith)) (t + k * (2 * Real.pi))
    rw [add_sub_add_left_eq_sub] at this
    linarith

end Sys2Proof.Machine
end

section
/-! SUPPORT. Statuses (60_exceptions.md R203 to R211): which fields stand at the response port, that
no step is fatal between exchanges, and the operations that always end with OK. -/

namespace Sys2Proof.Machine

/-! ### The response port (60_exceptions.md R203) -/

/-- An instruction puts a response that fits its status at the port, or leaves the port alone. -/
theorem exec_keeps_responseFits {i : Instr} {s t : State} (hs : s.ResponseFits)
    (h : exec i s = .next t) : t.ResponseFits := by
  rcases exec_eq_next h with ⟨r, rfl, hr⟩ | ⟨-, ⟨-, -, -, hresponse, -⟩, -⟩
  · intro r' hr'
    cases hr'
    exact hr
  · intro r hr
    exact hs r (hresponse ▸ hr)

/-- Settles O33: taking the request leaves the response port, and the instruction keeps what the
statement says of it. -/
theorem stepKeepsResponseFit : Obligations.StepKeepsResponseFit := by
  intro s t hs hstep
  rcases step_eq_next hstep with ⟨-, rfl⟩ | ⟨r, q, i, -, -, hexec⟩
  · exact hs
  · exact exec_keeps_responseFits (s := s.withRequests q) hs hexec

/-! ### Faults (60_exceptions.md R211, 70_reset_and_hazards.md R236) -/

/-- A step that faults ran an instruction that faults, on the state with the request taken. -/
theorem step_eq_fault {s : State} {f : Fault} (h : step s = .fault f) :
    ∃ r q i, s.requests = r :: q ∧ decode s.params.rxMax r = .ok i ∧
      exec i (s.withRequests q) = .fault f := by
  unfold step at h
  split at h
  · cases h
  · rename_i r s' hfetch
    obtain ⟨q, hrequests, rfl⟩ := State.fetch_eq_some s hfetch
    split at h
    · cases h
    · rename_i i hdecode
      exact ⟨r, q, i, hrequests, hdecode, h⟩

/-- In an idle session every instruction goes on: a codec operation by its response, a command frame
by its exchange. -/
theorem exec_goes_on_of_idle (i : Instr) {s : State} (hidle : s.session.phase = .idle) :
    ∃ t, exec i s = .next t := by
  rcases exec_cases i s with ⟨r, hexec, -⟩ | ⟨a, p, -, hexec | hexec⟩
  · exact ⟨_, hexec⟩
  · obtain ⟨t, hsend, -⟩ := sendAndDrain_spec s a p hidle
    exact ⟨t, hexec.trans hsend⟩
  · obtain ⟨-, t, hsend, -⟩ := sendAndRead_spec s a p hidle
    exact ⟨t, hexec.trans hsend⟩

/-- Settles O42: the invariant has the session idle, and there every instruction goes on. -/
theorem invariantStatesNeverFault : Obligations.InvariantStatesNeverFault := by
  rintro s f ⟨-, -, hidle⟩ hfault
  obtain ⟨r, q, i, -, -, hexec⟩ := step_eq_fault hfault
  obtain ⟨t, hnext⟩ := exec_goes_on_of_idle i (s := s.withRequests q) hidle
  cases hnext.symm.trans hexec

/-! ### The operations that cannot fail (60_exceptions.md R204) -/

/-- A miss of PT.BYINDEX is an ordinary answer (40_parameter_table.md R82). -/
theorem ptByindex_answers_ok (s : State) (i : Half) :
    ∃ r, AnswersOnly (exec (.ptByindex i) s) s r ∧ r.status = .ok := by
  rcases hlookup : romLookup s.rom i with _ | ⟨n, t⟩
  · exact ⟨_, ptByindex_answers_miss hlookup, rfl⟩
  · exact ⟨_, ptByindex_answers_found hlookup, rfl⟩

/-- Settles O32: PT.BYINDEX has an OK answer for a hit and for a miss, and each of the other seven
has one answer. -/
theorem eightOperationsNeverFail : Obligations.EightOperationsNeverFail := by
  intro s h m index a strat p
  simp only [List.forall_mem_cons]
  exact ⟨ptByindex_answers_ok s index,
    ⟨_, answersOnly_respond _ s, rfl⟩,
    ⟨_, answersOnly_respond _ s, rfl⟩,
    ⟨_, respondFrame_answers Config.enableCode h m Config.zeroPayload s, rfl⟩,
    ⟨_, respondFrame_answers Config.disableCode h m Config.zeroPayload s, rfl⟩,
    ⟨_, respondFrame_answers Config.resetCode h m Config.resetPayload s, rfl⟩,
    ⟨_, respondFrame_answers Config.readCode h m (parameterPayload index 0#8 0#8 0#8 0#8) s, rfl⟩,
    ⟨_, serWrap_answers a strat p s, rfl⟩,
    List.forall_mem_nil _⟩

end Sys2Proof.Machine
end

section
/-! SUPPORT. The steps in which no instruction goes on: nothing is outstanding, the port item has no
meaning, or a command frame is begun inside another exchange (70_reset_and_hazards.md R232, R236). -/

namespace Sys2Proof.Machine

/-! ### Steps that run no instruction (70_reset_and_hazards.md R232, 30_encoding.md R52, R56) -/

/-- With no request outstanding there is nothing to run. -/
theorem step_of_no_request {s : State} (hempty : s.requests = []) : step s = .next s := by
  simp only [step, (State.fetch_eq_none_iff s).2 hempty]

/-- A port item that does not decode is refused under the decoder's reason. -/
theorem step_of_decode_error {s : State} {r : Request} {q : List Request} {e : DecodeError}
    (hrequests : s.requests = r :: q) (hdecode : decode s.params.rxMax r = .error e) :
    step s = .refused (.notDecoded e) := by
  simp only [step, State.fetch_cons s hrequests, hdecode]

/-- Settles O36: the two ways in which a step comes to no instruction. -/
theorem stepIdlesOrRefuses : Obligations.StepIdlesOrRefuses := fun _ =>
  ⟨step_of_no_request, fun _ _ _ => step_of_decode_error⟩

/-! ### A command frame inside an exchange (70_reset_and_hazards.md R236, R242) -/

/-- Settles O54: each of the five frames is an exchange, drained or read (READ alone), and neither
kind begins while another is in flight. -/
theorem frameInsideExchangeFaults : Obligations.FrameInsideExchangeFaults := by
  intro s h m p hphase
  have hdrained := fun a => (send_not_idle s a p hphase).1
  have hread := fun a => (send_not_idle s a p hphase).2
  simp only [List.forall_mem_cons]
  exact ⟨hdrained (packAddress Config.enableCode h m),
    hdrained (packAddress Config.disableCode h m),
    hdrained (packAddress Config.resetCode h m),
    hread (packAddress Config.readCode h m),
    hdrained (packAddress Config.writeCode h m),
    List.forall_mem_nil _⟩

end Sys2Proof.Machine
end
